-- ==== Sys2Proof/Word.lean ====
section
/-! DEFINITION. The word types of the block and the names of its closed sets: the three data lines and the six strobe
commands (00_scope.md rules R7, R10; 30_encoding.md rule R83). -/

namespace Sys2Proof

/-- A frame-buffer word, a gamma value, a configuration value, the data-out register: 16 bits (rule R7). -/
abbrev Word := BitVec 16

/-- A colour channel value, 0 to 255 (rule R7, `CHANNEL_BITS`). -/
abbrev Level := BitVec 8

/-- A command word `cmd[39:0]` on the command port (30_encoding.md rule R84). -/
abbrev CommandWord := BitVec 40

/-- The three data lines, and with them the three receivers (10_state.md rules R27, R34). -/
inductive Channel where
  | red
  | green
  | blue
deriving DecidableEq, Repr

/-- The six strobe commands the receivers execute (30_encoding.md rule R83). A pulse count that selects none of them is
`UNSPEC` (rule R89 (a)). -/
inductive Strobe where
  | dataLatch
  | globalLatch
  | readCfg
  | writeCfg
  | pwmReset
  | enWriteCfg
deriving DecidableEq, Repr

end Sys2Proof
end

