-- ==== Sys2Proof/Syntax.lean ====
section
/-! DEFINITION. The operations of the block: the closed list of 30_encoding.md rule R80, one constructor for each row of
spec/opcode_table.json. -/

namespace Sys2Proof

/-- The 22 operations (30_encoding.md rule R80). The first seven are the host's and have a command word; TICK is an event;
the next eight occur only inside other operations; the last six are executed by the receivers and are selected by the
pulse count of a strobe, which the constructor carries where the table admits two counts. -/
inductive Instr where
  /-- `INIT` (44_color_api.md rule R183). -/
  | init
  /-- `ENCODE row, col, r, g, b` (41_bit_plane_encoder.md rule R120). -/
  | encode (row : BitVec 8) (col : BitVec 4) (r g b : Level)
  /-- `SET_COLOR index, r, g, b` (44_color_api.md rule R180). -/
  | setColor (index : BitVec 12) (r g b : Level)
  /-- `SET_COLOR_ALL r, g, b` (44_color_api.md rule R181). -/
  | setColorAll (r g b : Level)
  /-- `SET_GAIN gain` (44_color_api.md rule R182). -/
  | setGain (gain : BitVec 6)
  /-- `WRCFG value` (42_protocol_engine.md rule R134). -/
  | wrcfg (value : Word)
  /-- `DRAIN row` (42_protocol_engine.md rule R136). -/
  | drain (row : BitVec 8)
  /-- `TICK`: one tick event on the tick input (43_row_scheduler.md rules R170, R175). -/
  | tick
  /-- `GLOOKUP v` (40_gamma_rom.md rule R110). -/
  | glookup (v : Level)
  /-- `PULSE` (42_protocol_engine.md rule R130). -/
  | pulse
  /-- `LE_HI` (42_protocol_engine.md rule R131). -/
  | leHi
  /-- `LE_LO` (42_protocol_engine.md rule R132). -/
  | leLo
  /-- `DOUT_WR w` (42_protocol_engine.md rule R133). -/
  | doutWr (w : Word)
  /-- `GLATCH` (42_protocol_engine.md rule R137). -/
  | glatch
  /-- `PWMRST` (42_protocol_engine.md rule R138). -/
  | pwmrst
  /-- `ROW_SET r, v` (43_row_scheduler.md rule R171). -/
  | rowSet (r : BitVec 8) (v : Bool)
  /-- `DATA_LATCH`, strobe count 0 or 1 (42_protocol_engine.md rule R141). -/
  | dataLatch (count : Nat)
  /-- `GLOBAL_LATCH`, strobe count 2 or 3 (rule R142). -/
  | globalLatch (count : Nat)
  /-- `READ_CFG`, strobe count 4 or 5 (rule R143). -/
  | readCfg (count : Nat)
  /-- `WRITE_CFG`, strobe count 10 or 11 (rule R144). -/
  | writeCfg (count : Nat)
  /-- `PWM_RESET`, strobe count 13 (rule R146). -/
  | pwmReset
  /-- `EN_WRITE_CFG`, strobe count 14 or 15 (rule R145). -/
  | enWriteCfg (count : Nat)
deriving DecidableEq, Repr

end Sys2Proof
end

