-- ==== Sys2Proof/WellFormed.lean ====
section
/-! DEFINITION. What the syntax alone demands of an operation. Operand fields have their widths as types, so the one check
left is that a strobe command carries a pulse count of its own range (30_encoding.md rule R83). `row < ROW_COUNT` is no
matter of syntax: ENCODE and DRAIN check it when they run (20_memory.md rule R54). -/

namespace Sys2Proof

/-- The operation's pulse count, where it carries one, is one the strobe code gives that command (30_encoding.md rule
R83). -/
def Instr.wellFormed (i : Instr) : Bool :=
  match i with
  | .dataLatch n => n == 0 || n == 1
  | .globalLatch n => n == 2 || n == 3
  | .readCfg n => n == 4 || n == 5
  | .writeCfg n => n == 10 || n == 11
  | .enWriteCfg n => n == 14 || n == 15
  | .init => true
  | .encode _ _ _ _ _ => true
  | .setColor _ _ _ _ => true
  | .setColorAll _ _ _ => true
  | .setGain _ => true
  | .wrcfg _ => true
  | .drain _ => true
  | .tick => true
  | .glookup _ => true
  | .pulse => true
  | .leHi => true
  | .leLo => true
  | .doutWr _ => true
  | .glatch => true
  | .pwmrst => true
  | .rowSet _ _ => true
  | .pwmReset => true

end Sys2Proof
end

