-- ==== Sys2Proof/Decode.lean ====
section
/-! DEFINITION. The two codes by which an operation is selected: the 40-bit command word (30_encoding.md rules R84, R85, R89)
and the pulse count of a strobe (rules R83, R89), each with its decoder and its encoder. -/

namespace Sys2Proof

/-- Why a code selects no operation. -/
inductive DecodeError where
  /-- A command word whose `op` is 0x0 or 0x8 to 0xF (30_encoding.md rule R89 (b)). -/
  | reservedOp (op : BitVec 4)
  /-- A pulse count to which no command is assigned, `UNSPEC` (30_encoding.md rule R89 (a)). -/
  | unspecCount (count : Nat)
deriving DecidableEq, Repr

/-- A code of an operation: a word on the command port, or a strobe's pulse count. -/
inductive Code where
  | command (w : CommandWord)
  | strobe (count : Nat)
deriving DecidableEq, Repr

/-! ### The fields of a command word (30_encoding.md rule R84) -/

/-- `cmd[39:36]`. -/
def opField (w : CommandWord) : BitVec 4 := w.extractLsb' 36 4

/-- `cmd[35:28]`, the row of formats E and R. -/
def rowField (w : CommandWord) : BitVec 8 := w.extractLsb' 28 8

/-- `cmd[27:24]`, the column of format E. -/
def colField (w : CommandWord) : BitVec 4 := w.extractLsb' 24 4

/-- `cmd[35:24]`, the LED index of format I. -/
def indexField (w : CommandWord) : BitVec 12 := w.extractLsb' 24 12

/-- `cmd[23:16]`. -/
def rField (w : CommandWord) : Level := w.extractLsb' 16 8

/-- `cmd[15:8]`. -/
def gField (w : CommandWord) : Level := w.extractLsb' 8 8

/-- `cmd[7:0]`. -/
def bField (w : CommandWord) : Level := w.extractLsb' 0 8

/-- `cmd[15:0]`, the value of format V. -/
def valueField (w : CommandWord) : Word := w.extractLsb' 0 16

/-- `cmd[5:0]`, the gain of format G. -/
def gainField (w : CommandWord) : BitVec 6 := w.extractLsb' 0 6

/-- The operation a command word asks for (30_encoding.md rule R85). Fields the format does not use are ignored (rule
R89 (c)). -/
def decode (w : CommandWord) : Except DecodeError Instr :=
  match (opField w).toNat with
  | 1 => .ok .init
  | 2 => .ok (.encode (rowField w) (colField w) (rField w) (gField w) (bField w))
  | 3 => .ok (.setColor (indexField w) (rField w) (gField w) (bField w))
  | 4 => .ok (.setColorAll (rField w) (gField w) (bField w))
  | 5 => .ok (.setGain (gainField w))
  | 6 => .ok (.wrcfg (valueField w))
  | 7 => .ok (.drain (rowField w))
  | _ => .error (.reservedOp (opField w))

/-- The strobe command a pulse count selects; `none` is `UNSPEC` (30_encoding.md rule R83). -/
def classify (count : Nat) : Option Strobe :=
  match count with
  | 0 => some .dataLatch
  | 1 => some .dataLatch
  | 2 => some .globalLatch
  | 3 => some .globalLatch
  | 4 => some .readCfg
  | 5 => some .readCfg
  | 10 => some .writeCfg
  | 11 => some .writeCfg
  | 13 => some .pwmReset
  | 14 => some .enWriteCfg
  | 15 => some .enWriteCfg
  | _ => none

/-- The operation a strobe of `count` pulses makes the receivers execute (30_encoding.md rules R83, R89 (a)). -/
def decodeStrobe (count : Nat) : Except DecodeError Instr :=
  match classify count with
  | some .dataLatch => .ok (.dataLatch count)
  | some .globalLatch => .ok (.globalLatch count)
  | some .readCfg => .ok (.readCfg count)
  | some .writeCfg => .ok (.writeCfg count)
  | some .pwmReset => .ok .pwmReset
  | some .enWriteCfg => .ok (.enWriteCfg count)
  | none => .error (.unspecCount count)

/-- The operation a code selects. -/
def decodeCode (c : Code) : Except DecodeError Instr :=
  match c with
  | .command w => decode w
  | .strobe n => decodeStrobe n

/-- A field put at bit `n` of a command word, every other bit 0. -/
def place {k : Nat} (n : Nat) (x : BitVec k) : CommandWord := x.setWidth 40 <<< n

/-- The code of an operation, unused fields 0 (30_encoding.md rules R83 to R85). TICK, the sub-operations and the pin
micro-operations have none (rule R85). -/
def encode (i : Instr) : Option Code :=
  match i with
  | .init => some (.command (place 36 0x1#4))
  | .encode row col r g b => some (.command (place 36 0x2#4 ||| place 28 row ||| place 24 col ||| place 16 r ||| place 8 g ||| place 0 b))
  | .setColor index r g b => some (.command (place 36 0x3#4 ||| place 24 index ||| place 16 r ||| place 8 g ||| place 0 b))
  | .setColorAll r g b => some (.command (place 36 0x4#4 ||| place 16 r ||| place 8 g ||| place 0 b))
  | .setGain gain => some (.command (place 36 0x5#4 ||| place 0 gain))
  | .wrcfg value => some (.command (place 36 0x6#4 ||| place 0 value))
  | .drain row => some (.command (place 36 0x7#4 ||| place 28 row))
  | .dataLatch n => some (.strobe n)
  | .globalLatch n => some (.strobe n)
  | .readCfg n => some (.strobe n)
  | .writeCfg n => some (.strobe n)
  | .pwmReset => some (.strobe 13)
  | .enWriteCfg n => some (.strobe n)
  | .tick => none
  | .glookup _ => none
  | .pulse => none
  | .leHi => none
  | .leLo => none
  | .doutWr _ => none
  | .glatch => none
  | .pwmrst => none
  | .rowSet _ _ => none

/-- The bits of a command word that its format uses, the `op` field among them (30_encoding.md rule R84). -/
def usedBits (w : CommandWord) : CommandWord :=
  match (opField w).toNat with
  | 2 => 0xFFFFFFFFFF#40
  | 3 => 0xFFFFFFFFFF#40
  | 4 => 0xF000FFFFFF#40
  | 5 => 0xF00000003F#40
  | 6 => 0xF00000FFFF#40
  | 7 => 0xFFF0000000#40
  | _ => 0xF000000000#40

/-- The operation read from a code of `nbits` bits whose value is `w`. A command word has 40 bits (30_encoding.md rule
R90); the rows of spec/opcode_table.json that are no command word and have a code at all are the strobe commands, whose
code is the pulse count itself (rule R83). -/
def decodeTableWord (nbits w : Nat) : Option Instr :=
  match (if nbits = 40 then decode (BitVec.ofNat 40 w) else decodeStrobe w) with
  | .ok i => some i
  | .error _ => none

end Sys2Proof
end

