-- ==== Sys2Proof/Config.lean ====
section
/-! DEFINITION. What an implementation fixes: the open parameters of 00_scope.md rule R8 with their constraints, the two
reference instances of the gamma ROM (40_gamma_rom.md rule R112), the example parameter set of 95_test_vectors.md, and
the two values that are left free: the machine's own parameters and the chips' power-on configuration. -/

namespace Sys2Proof

/-- How the encoder and the drain are kept apart (20_memory.md rule R62). -/
inductive Excl where
  /-- The tick is held off for the duration of one ENCODE. -/
  | maskTick
  /-- The original firmware: a tick may fall between any two word writes of an ENCODE. -/
  | noExcl
deriving DecidableEq, Repr

/-- A (row, column) pair, the place of an LED (10_state.md rule R33). The column is 4 bits, so it is in `[0, 15]`. -/
structure LedPos where
  row : BitVec 8
  col : BitVec 4
deriving DecidableEq, Repr, Inhabited

/-- The open parameters of 00_scope.md rule R8, as plain data. -/
structure Params where
  /-- The highest row number: `ROW_COUNT = lastRow + 1`, so that `1 ≤ ROW_COUNT ≤ 256` by its type. -/
  lastRow : Fin 256
  /-- `GAMMA`, 256 entries of 16 bits (10_state.md rule R21). -/
  gamma : Vector Word 256
  /-- `LED_POS`; `LED_COUNT` is its length (10_state.md rule R33). -/
  ledPos : List LedPos
  /-- `INDICATOR_INDEX`, one LED index or none. -/
  indicatorIndex : Option Nat
  /-- `CFG_DEFAULT`, the configuration value INIT sends. -/
  cfgDefault : Word
  /-- `GAIN_LSB`, the place of the 6-bit gain field, 0 to 10 by its type. -/
  gainLsb : Fin 11
  /-- The bit position of the configuration value's enable bit, which the spec does not give (10_state.md rule R31): a free value
  like every other parameter. -/
  enableBit : Fin 16
  /-- `EXCL`. -/
  excl : Excl
  /-- `TICK_HZ`; no rule depends on it (rule R8, decision D1). -/
  tickHz : Nat
deriving DecidableEq, Repr

/-- `ROW_COUNT`. -/
def Params.rowCount (p : Params) : Nat := p.lastRow.val + 1

/-- `LED_COUNT`. -/
def Params.ledCount (p : Params) : Nat := p.ledPos.length

/-- `GAMMA[v]` (00_scope.md rule R11): every 8-bit address has its entry (20_memory.md rule R52). -/
def Params.gammaAt (p : Params) (v : Level) : Word := p.gamma[v.toNat]'v.isLt

/-- The gain field of a configuration value, bits `GAIN_LSB + 5 : GAIN_LSB` (30_encoding.md rule R82). -/
def Params.gainField (p : Params) (value : Word) : BitVec 6 := value.extractLsb' p.gainLsb.val 6

/-- `DEFAULT_GAIN`, the gain field of `CFG_DEFAULT` (92_eei_decisions.md D23; 10_state.md rule R31). -/
def Params.defaultGain (p : Params) : BitVec 6 := p.gainField p.cfgDefault

/-- The constraints of 00_scope.md rule R8 that the types do not already say: G0 and GM of the gamma ROM (GM by
neighbours), `LED_COUNT ≤ 4096`, the range of `LED_POS`, `INDICATOR_INDEX < LED_COUNT`, and the enable bit of `CFG_DEFAULT`
set. That the enable bit is no bit of the gain field is read from the spec's list of distinct fields (DEDUCED, log entry
15). -/
abbrev Params.Valid (p : Params) : Prop :=
  p.gamma[0] = 0 ∧
  (∀ i : Fin 255, p.gamma[i.val] ≤ p.gamma[i.val + 1]) ∧
  p.ledPos.length ≤ 4096 ∧
  (∀ pos ∈ p.ledPos, pos.row.toNat < p.rowCount) ∧
  (∀ i ∈ p.indicatorIndex, i < p.ledPos.length) ∧
  p.cfgDefault.getLsbD p.enableBit.val = true ∧
  (p.enableBit.val < p.gainLsb.val ∨ p.gainLsb.val + 6 ≤ p.enableBit.val)

/-! ### The reference instances of the gamma ROM (40_gamma_rom.md rule R112) -/

/-- `GAMMA_LIN[i] = i × 257`. -/
def Config.gammaLin : Vector Word 256 :=
  ⟨((List.range 256).map fun i => BitVec.ofNat 16 (i * 257)).toArray, by simp⟩

/-- Entries 0 to 63 of `GAMMA_CIE_REF` (40_gamma_rom.md rule R112 (b)). -/
def Config.cieRef0 : List Nat :=
  [0, 28, 57, 85, 114, 142, 171, 199,
   228, 256, 285, 313, 341, 370, 398, 427,
   455, 484, 512, 541, 569, 598, 627, 658,
   689, 721, 755, 789, 825, 861, 899, 937,
   977, 1018, 1060, 1103, 1147, 1192, 1239, 1287,
   1336, 1386, 1437, 1490, 1544, 1599, 1656, 1714,
   1773, 1834, 1896, 1959, 2024, 2090, 2157, 2226,
   2297, 2369, 2442, 2517, 2593, 2671, 2751, 2832]

/-- Entries 64 to 127 of `GAMMA_CIE_REF` (40_gamma_rom.md rule R112 (b)). -/
def Config.cieRef1 : List Nat :=
  [2914, 2999, 3085, 3172, 3261, 3352, 3444, 3538,
   3634, 3732, 3831, 3932, 4035, 4139, 4245, 4354,
   4464, 4575, 4689, 4804, 4922, 5041, 5162, 5285,
   5410, 5537, 5666, 5797, 5930, 6065, 6202, 6341,
   6482, 6626, 6771, 6918, 7068, 7220, 7373, 7529,
   7687, 7848, 8010, 8175, 8342, 8512, 8683, 8857,
   9033, 9212, 9393, 9576, 9762, 9949, 10140, 10333,
   10528, 10725, 10926, 11128, 11333, 11541, 11751, 11963]

/-- Entries 128 to 191 of `GAMMA_CIE_REF` (40_gamma_rom.md rule R112 (b)). -/
def Config.cieRef2 : List Nat :=
  [12179, 12396, 12617, 12840, 13065, 13293, 13524, 13757,
   13993, 14232, 14474, 14718, 14965, 15215, 15467, 15722,
   15980, 16241, 16505, 16771, 17041, 17313, 17588, 17866,
   18147, 18431, 18717, 19007, 19300, 19596, 19894, 20196,
   20501, 20809, 21119, 21433, 21750, 22071, 22394, 22720,
   23050, 23383, 23719, 24058, 24400, 24746, 25095, 25447,
   25802, 26161, 26523, 26888, 27257, 27629, 28004, 28383,
   28765, 29151, 29540, 29932, 30328, 30728, 31131, 31537]

/-- Entries 192 to 255 of `GAMMA_CIE_REF` (40_gamma_rom.md rule R112 (b)). -/
def Config.cieRef3 : List Nat :=
  [31947, 32360, 32777, 33198, 33622, 34050, 34481, 34916,
   35355, 35797, 36243, 36693, 37146, 37603, 38064, 38529,
   38997, 39469, 39945, 40425, 40908, 41396, 41887, 42382,
   42881, 43384, 43891, 44401, 44916, 45435, 45957, 46484,
   47015, 47549, 48088, 48631, 49178, 49728, 50283, 50843,
   51406, 51973, 52545, 53120, 53700, 54284, 54873, 55465,
   56062, 56663, 57269, 57878, 58492, 59111, 59733, 60360,
   60992, 61627, 62268, 62912, 63561, 64215, 64873, 65535]

theorem Config.cieRef_length :
    (Config.cieRef0 ++ Config.cieRef1 ++ Config.cieRef2 ++ Config.cieRef3).length = 256 := by
  have h0 : Config.cieRef0.length = 64 := by decide
  have h1 : Config.cieRef1.length = 64 := by decide
  have h2 : Config.cieRef2.length = 64 := by decide
  have h3 : Config.cieRef3.length = 64 := by decide
  simp only [List.length_append, h0, h1, h2, h3]

/-- `GAMMA_CIE_REF` (rule R112 (b), from general knowledge, not in source). -/
def Config.gammaCieRef : Vector Word 256 :=
  ⟨((Config.cieRef0 ++ Config.cieRef1 ++ Config.cieRef2 ++ Config.cieRef3).map (BitVec.ofNat 16)).toArray, by
    simpa using Config.cieRef_length⟩

/-- The example parameter set of 95_test_vectors.md: example values, not values of the hardware. The vectors give the enable bit
no position; bit 0 is the one bit of the example's `CFG_DEFAULT` that is set and lies outside its gain field. -/
def Config.exampleParams : Params where
  lastRow := 4
  gamma := Config.gammaLin
  ledPos := (List.range 75).map fun i => ⟨BitVec.ofNat 8 (i / 16), BitVec.ofNat 4 (i % 16)⟩
  indicatorIndex := none
  cfgDefault := 0x02B1
  gainLsb := 4
  enableBit := 0
  excl := .maskTick
  tickHz := 2000

/-! ### What is left free -/

/-- Some parameter set: nothing is known of it. It is opaque, so no proof can learn a value of it. -/
opaque Config.anyParams : Option Params

/-- The machine's own parameters, of which nothing is known but that they meet the constraints of 00_scope.md rule R8:
whatever valid set `Config.anyParams` holds is the machine's, and where it holds none the example set stands in. -/
def Config.machine : Params :=
  match Config.anyParams with
  | some p => if p.Valid then p else Config.exampleParams
  | none => Config.exampleParams

/-- The chips' configuration register at power-on, `unspecified` (10_state.md rule R34; 93_implementation_defined.md U6):
a free value. -/
opaque Config.chipConfig : Channel → Word

end Sys2Proof
end

