-- ==== Sys2Proof/Machine/State.lean ====
section
/-! DEFINITION. The state of the machine as plain data: the block (10_state.md rules R20 to R30), its encoder's working
registers while an ENCODE is in progress (rules R26, R35), the three reference receivers (rule R34), and what the
environment supplies; why a step can stop; and the state after reset (rule R37). -/

namespace Sys2Proof.Machine

/-- A pin event: one write to an output pin (00_scope.md rule R13). -/
inductive PinEvent where
  /-- `D(w)`: `DOUT <- w`. -/
  | data (w : Word)
  /-- `C+`: `DCLK <- 1`. -/
  | clkHi
  /-- `C-`: `DCLK <- 0`. -/
  | clkLo
  /-- `L+`: `LE <- 1`. -/
  | leHi
  /-- `L-`: `LE <- 0`. -/
  | leLo
  /-- `ROW(r, v)`: `ROW_EN[r] <- v`. -/
  | row (r : Nat) (v : Bool)
deriving DecidableEq, Repr

/-- One listed word of the frame buffer: its linear word address (20_memory.md rule R51) and its value. The frame buffer's
smallest addressable unit is the 16-bit word (rules R50, R53). -/
abbrev FbCell := Nat × Word

/-- One reference receiver (10_state.md rule R34). -/
structure Chip where
  /-- `SR_c`, the serial shift register. -/
  sr : Word
  /-- `CFG_c`, the configuration register. -/
  cfg : Word
  /-- `LATCHED_c`, the words latched since the last Global Latch, oldest first. -/
  latched : List Word
  /-- `ACTIVE_c`, what the last Global Latch copied from the buffers. -/
  active : List Word
deriving DecidableEq, Repr

/-- The environment agent `CHIPS`: three receivers and what they share, because they see the same DCLK and LE (10_state.md
rule R34). -/
structure Chips where
  r : Chip
  g : Chip
  b : Chip
  /-- `NLE`, the rising edges of DCLK seen since LE last rose. -/
  nle : Nat
  /-- `ARMED`: an Enable-Writing-Configuration command was the immediately preceding command. -/
  armed : Bool
  /-- `PWMRST_N`, the PWM-counter resets seen. -/
  pwmResets : Nat
deriving DecidableEq, Repr

/-- The working registers of an ENCODE in progress (10_state.md rules R26, R35 (a)): the operand latches, the three gamma
values looked up before the plane loop, and the plane to be written next. -/
structure Encoder where
  row : Nat
  col : Nat
  gr : Word
  gg : Word
  gb : Word
  p : Nat
deriving DecidableEq, Repr

/-- Which host operation the ENCODE in progress belongs to. -/
inductive JobKind where
  /-- A direct ENCODE command. -/
  | encode
  /-- A SET_COLOR, which sets DIRTY after the last word write (44_color_api.md rule R180). -/
  | setColor
  /-- A SET_COLOR_ALL: its channel operands, the level of `indicator_active` sampled at its start (rule R184), and the
  number `row × 16 + col` of the slot being encoded (rule R181's row-major order). -/
  | setColorAll (r g b : Level) (ind : Bool) (slot : Nat)
deriving DecidableEq, Repr

/-- A host operation of which the environment has interrupted the middle: the context BG while another agent moves
(20_memory.md rules R62, R63; 60_exceptions.md rule R213). -/
structure Job where
  kind : JobKind
  enc : Encoder
deriving DecidableEq, Repr

/-- What the environment does next (00_scope.md rule R9; 60_exceptions.md rules R235, R236). -/
inductive Stim where
  /-- The host puts a command word on the command port. No event falls inside the operation. -/
  | cmd (w : CommandWord)
  /-- The host puts a command word on the command port, and an event of the environment arrives after `k` of the
  operation's sub-steps: word writes under `EXCL = none`, whole ENCODEs of a SET_COLOR_ALL under `mask_tick`. In an atomic
  operation the event is held until the operation ends (20_memory.md rules R61 to R63). -/
  | cmdUntil (w : CommandWord) (k : Nat)
  /-- The operation in progress goes on for `k` further sub-steps before the environment's next event. -/
  | runUntil (k : Nat)
  /-- TIMER emits a tick event (60_exceptions.md rule R210). -/
  | tick
  /-- TIMER emits a tick event and a second one while the TICK of the first is running (60_exceptions.md rule R211). -/
  | tickInTick
  /-- The host sets the level of the input `indicator_active` (10_state.md rule R33). -/
  | indicator (level : Bool)
  /-- The host clears DIRTY (44_color_api.md rule R185). -/
  | clearDirty
  /-- The reset event (70_reset_and_hazards.md rule R240). The spec does not say when it may arrive; that it does not fall inside
  an atomic operation is the model's choice (DESIGN CHOICE, unsafe, log entry 26). -/
  | reset
deriving DecidableEq, Repr

/-- The state of the machine. -/
structure State where
  /-- The parameters of the step (00_scope.md rule R8; 10_state.md rule R36). No step writes them. -/
  params : Params
  /-- `FB`, the listed words (10_state.md rule R22). -/
  fb : List FbCell
  /-- `CURSOR` (10_state.md rule R23). -/
  cursor : Nat
  /-- `DIRTY` (10_state.md rule R24). -/
  dirty : Bool
  /-- `TICK_EN` (10_state.md rule R25). -/
  tickEn : Bool
  /-- `DOUT` (10_state.md rule R27). -/
  dout : Word
  /-- `DCLK` (10_state.md rule R28). -/
  dclk : Bool
  /-- `LE` (10_state.md rule R29). -/
  le : Bool
  /-- `ROW_EN[0 .. ROW_COUNT − 1]` (10_state.md rule R30). -/
  rowEn : List Bool
  /-- The pin trace (10_state.md rule R39), newest event first; `State.pinTrace` reads it in the order of the events. -/
  trace : List PinEvent
  /-- The reference receivers (10_state.md rule R34). -/
  chips : Chips
  /-- The host operation in progress, if the environment has interrupted one (10_state.md rule R35 (a)). -/
  busy : Option Job
  /-- The model's own: the 16-bit result of the last GLOOKUP performed as an operation of its own (40_gamma_rom.md rule
  R110). ENCODE's own look-ups go to its working registers and not here. -/
  lookup : Word
  /-- The level of the input `indicator_active` (10_state.md rule R33). -/
  indicator : Bool
  /-- The model's own: what the environment does next, first thing first. -/
  stim : List Stim
deriving DecidableEq, Repr

/-- Why a run has gone wrong (60_exceptions.md rules R201, R203). -/
inductive Fault where
  /-- `OVERRUN`: a tick event while a TICK is running with `TICK_EN = 1` (60_exceptions.md rule R211). Raised by step on the
  environment's `tickInTick`. Safe: the spec makes it a fault. -/
  | overrun
  /-- `UnspecStrobe`: the receivers see a strobe whose count selects no command (42_protocol_engine.md rule R147). Raised by
  an `L-` event; only LE_LO performed by itself can meet it, no other operation of the block does. Safe: the spec makes
  it a fault. -/
  | unspecStrobe
deriving DecidableEq, Repr

/-- Why a request has no meaning (60_exceptions.md rules R201, R203). -/
inductive Refusal where
  /-- No meaning written yet. Raised by exec's arms only. Safe. -/
  | notModelled (mnemonic : String)
  /-- `OutOfRange`: ENCODE, DRAIN or ROW_SET with `row ≥ ROW_COUNT` (20_memory.md rule R54; 43_row_scheduler.md rule R171).
  Raised by the shared operand check. Safe: nothing is proved of such a run. -/
  | outOfRange
  /-- `ReservedOp`: a command word with op 0x0 or 0x8 to 0xF (30_encoding.md rule R89 (b)). Raised by step. Safe. -/
  | reservedOp
deriving DecidableEq, Repr

/-- A receiver as the reference model starts it (10_state.md rule R34), its configuration register holding `cfg`. -/
def Chip.start (cfg : Word) : Chip where
  sr := 0
  cfg := cfg
  latched := []
  active := []

/-- The receivers as the reference model starts them (10_state.md rule R34). -/
def Chips.start (cfg : Channel → Word) : Chips where
  r := Chip.start (cfg .red)
  g := Chip.start (cfg .green)
  b := Chip.start (cfg .blue)
  nle := 0
  armed := false
  pwmResets := 0

/-- The machine right after reset (10_state.md rule R37), for any parameters and any power-on configuration of the chips. -/
def State.resetWith (params : Params) (chipConfig : Channel → Word) : State where
  params := params
  fb := []
  cursor := 0
  dirty := false
  tickEn := false
  dout := 0
  dclk := false
  le := false
  rowEn := List.replicate params.rowCount false
  trace := []
  chips := Chips.start chipConfig
  busy := none
  lookup := 0
  indicator := false
  stim := []

/-- The machine right after reset: the parameters and the chips' configuration registers are the ones nothing is known
of. -/
def State.reset : State := State.resetWith Config.machine Config.chipConfig

end Sys2Proof.Machine
end

