-- ==== Sys2Proof/Machine/Ops.lean ====
section
/-! DEFINITION. The shared operations: sequencing of steps, the frame buffer's read and write, the receivers' reactions, the
emission of pin events, and the serving of a tick. -/

namespace Sys2Proof.Machine

/-- The outcome of an operation. -/
abbrev Result := Host.Outcome State Fault Refusal

/-- Go on with `f` where `o` is a next state; a fault or a refusal ends the operation. -/
def andThen (o : Result) (f : State → Result) : Result :=
  match o with
  | .next s => f s
  | .fault r => .fault r
  | .refused r => .refused r

/-! ### The frame buffer (20_memory.md rules R50, R51, R55) -/

/-- What a word of the frame buffer that is not listed reads as: the reset contents (10_state.md rule R37). -/
def fbUnlisted : Word := 0x0000

/-- The canonical form of the listed words: addresses strictly rising, and no word equal to what an unlisted one reads
as. -/
abbrev FbWf (m : List FbCell) : Prop :=
  m.Pairwise (fun c d => c.1 < d.1) ∧ ∀ c ∈ m, c.2 ≠ fbUnlisted

/-- `MemRead(a, 1)`: one word, whole (20_memory.md rules R51, R55). A read changes nothing (rule R56). -/
def fbRead (m : List FbCell) (a : Nat) : Word :=
  match m with
  | [] => fbUnlisted
  | (b, w) :: rest => if b = a then w else fbRead rest a

/-- The listed words but the one at `a`. -/
def fbErase (m : List FbCell) (a : Nat) : List FbCell := m.filter fun c => c.1 != a

/-- Lists a word at the place its address has among the rising addresses. -/
def fbInsert (m : List FbCell) (a : Nat) (v : Word) : List FbCell :=
  match m with
  | [] => [(a, v)]
  | (b, w) :: rest => if a < b then (a, v) :: (b, w) :: rest else (b, w) :: fbInsert rest a v

/-- `MemWrite(a, 1, v)`: replaces one word whole (20_memory.md rules R51, R55). -/
def fbWrite (m : List FbCell) (a : Nat) (v : Word) : List FbCell :=
  if v = fbUnlisted then fbErase m a else fbInsert (fbErase m a) a v

/-- The linear word address `A(row, col, p)` (20_memory.md rule R51). -/
def wordAddr (row col p : Nat) : Nat := row * 256 + col * 16 + p

/-- `FB[row][col][p]` (10_state.md rule R22). -/
def State.word (s : State) (row col p : Nat) : Word := fbRead s.fb (wordAddr row col p)

/-! ### The receivers (42_protocol_engine.md rules R141 to R153) -/

/-- The bit of DOUT that is the channel's data line (10_state.md rule R27). -/
def dataBit (c : Channel) : Nat :=
  match c with
  | .red => 14
  | .green => 13
  | .blue => 12

/-- The level of the channel's data line. -/
def dataLine (dout : Word) (c : Channel) : Bool := dout.getLsbD (dataBit c)

/-- The receiver on a data line. -/
def Chips.chip (cs : Chips) (c : Channel) : Chip :=
  match c with
  | .red => cs.r
  | .green => cs.g
  | .blue => cs.b

/-- Every receiver changed by `f`, what they share left alone. -/
def Chips.mapChip (cs : Chips) (f : Channel → Chip → Chip) : Chips :=
  { cs with r := f .red cs.r, g := f .green cs.g, b := f .blue cs.b }

/-- `C+` at the receivers: each shifts its data line's level in at bit 0, and the pulse is counted while LE is high (rule
R151). -/
def Chips.clockIn (cs : Chips) (dout : Word) (le : Bool) : Chips :=
  { cs.mapChip (fun c k => { k with sr := k.sr.shiftConcat (dataLine dout c) }) with
    nle := if le then cs.nle + 1 else cs.nle }

/-- `L+` at the receivers: the pulse count starts again at 0 (rule R152). -/
def Chips.leRise (cs : Chips) : Chips := { cs with nle := 0 }

/-- DATA_LATCH (rule R141). -/
def Chips.dataLatch (cs : Chips) : Chips :=
  { cs.mapChip (fun _ k => { k with latched := k.latched ++ [k.sr] }) with armed := false }

/-- GLOBAL_LATCH (rule R142). -/
def Chips.globalLatch (cs : Chips) : Chips :=
  { cs.mapChip (fun _ k => { k with active := k.latched, latched := [] }) with armed := false }

/-- READ_CFG (rule R143). -/
def Chips.readCfg (cs : Chips) : Chips := { cs with armed := false }

/-- WRITE_CFG: takes effect only if the receivers are armed (rule R144). -/
def Chips.writeCfg (cs : Chips) : Chips :=
  { cs.mapChip (fun _ k => if cs.armed then { k with cfg := k.sr } else k) with armed := false }

/-- PWM_RESET (rule R146). -/
def Chips.pwmReset (cs : Chips) : Chips :=
  { cs with pwmResets := cs.pwmResets + 1, armed := false }

/-- EN_WRITE_CFG (rule R145). -/
def Chips.enWriteCfg (cs : Chips) : Chips := { cs with armed := true }

/-- The receivers execute a strobe command (rules R140, R153). -/
def Chips.execute (cs : Chips) (c : Strobe) : Chips :=
  match c with
  | .dataLatch => cs.dataLatch
  | .globalLatch => cs.globalLatch
  | .readCfg => cs.readCfg
  | .writeCfg => cs.writeCfg
  | .pwmReset => cs.pwmReset
  | .enWriteCfg => cs.enWriteCfg

/-! ### Pin events (00_scope.md rule R13; 10_state.md rules R27 to R30, R39) -/

/-- The pin trace in the order of its events (10_state.md rule R39). -/
def State.pinTrace (s : State) : List PinEvent := s.trace.reverse

/-- Appends an event to the pin trace. -/
def record (e : PinEvent) (s : State) : State := { s with trace := e :: s.trace }

/-- The event `ROW(r, v)`: recorded also where the pin has that level already (43_row_scheduler.md rule R171). The receivers
do not see it (42_protocol_engine.md rules R152, R154). -/
def setRow (r : Nat) (v : Bool) (s : State) : State :=
  record (.row r v) { s with rowEn := s.rowEn.set r v }

/-- The level of row `r`'s power switch; a row beyond ROW_COUNT has none and is off. -/
def State.rowOn (s : State) (r : Nat) : Bool := s.rowEn.getD r false

/-- `emit e`: the pin register is written, the event recorded, and the receivers react (00_scope.md rules R11, R13;
42_protocol_engine.md rules R151 to R153). An `L-` whose count selects no command is the receivers' fault (rule R147). -/
def emit (e : PinEvent) (s : State) : Result :=
  match e with
  | .data w => .next (record (.data w) { s with dout := w })
  | .clkHi => .next (record .clkHi { s with dclk := true, chips := s.chips.clockIn s.dout s.le })
  | .clkLo => .next (record .clkLo { s with dclk := false })
  | .leHi => .next (record .leHi { s with le := true, chips := s.chips.leRise })
  | .leLo =>
    match classify s.chips.nle with
    | some c => .next (record .leLo { s with le := false, chips := s.chips.execute c })
    | none => .fault .unspecStrobe
  | .row r v => .next (setRow r v s)

/-- Emits the events one after another. -/
def emitAll (es : List PinEvent) (s : State) : Result :=
  match es with
  | [] => .next s
  | e :: rest => andThen (emit e s) (emitAll rest)

/-! ### The tick (60_exceptions.md rules R210, R213, R214) -/

/-- Entry to and return from the tick, the block's only interrupt: while `TICK_EN = 0` the event is ignored
(43_row_scheduler.md rule R175); else control goes to the handler, with nothing saved and no mode changed (rule R213), and
BG goes on from the state the handler leaves, with nothing restored (rule R214). -/
def takeTick (handler : State → Result) (s : State) : Result :=
  if s.tickEn then handler s else .next s

/-- A second tick event while the TICK of the first is running: the fault OVERRUN (60_exceptions.md rule R211). While
`TICK_EN = 0` no TICK runs, and both events are ignored (43_row_scheduler.md rule R175). -/
def tickDuringTick (s : State) : Result :=
  if s.tickEn then .fault .overrun else .next s

end Sys2Proof.Machine
end

