-- ==== Sys2Proof/Machine/GammaRom.lean ====
section
/-! DEFINITION. The unit gamma_lookup_rom: GLOOKUP (40_gamma_rom.md). -/

namespace Sys2Proof.Machine

/-- GLOOKUP (40_gamma_rom.md rule R110): the result is `GAMMA[v]`; no state of the block is written. The result of a look-up
performed as an operation of its own is held in the model's field `lookup`. -/
def execGlookup (v : Level) (s : State) : Result := .next { s with lookup := s.params.gammaAt v }

end Sys2Proof.Machine
end

