-- ==== Sys2Proof/Machine/Operands.lean ====
section
/-! DEFINITION. What operations make of their operands: the row check, the frame-buffer word, the serialised configuration
bit, the gain field, the indicator override (30_encoding.md rules R86, R87, R93; 20_memory.md rule R54; 44_color_api.md rules
R180 to R184). -/

namespace Sys2Proof.Machine

/-- The row operand's check: refused, with nothing changed, where `row ≥ ROW_COUNT` (20_memory.md rule R54). -/
def checkRow (row : Nat) (s : State) (f : State → Result) : Result :=
  if row < s.params.rowCount then f s else .refused .outOfRange

/-- `v[k]` as a 16-bit value (00_scope.md rule R10). -/
def bitOf (v : Word) (k : Nat) : Word := (BitVec.ofBool (v.getLsbD k)).setWidth 16

/-- The word of plane `p` (30_encoding.md rule R86): bit `15 − p` of each channel's gamma value in bits 14, 13, 12, every
other bit 0 (rule R81). -/
def planeWord (gr gg gb : Word) (p : Nat) : Word :=
  (bitOf gr (15 - p) <<< 14) ||| (bitOf gg (15 - p) <<< 13) ||| (bitOf gb (15 - p) <<< 12)

/-- The word written to DOUT at pulse `i` of the configuration data phase: bit `15 − i` on all three data lines
(30_encoding.md rule R87). -/
def configWord (value : Word) (i : Nat) : Word := if value.getLsbD (15 - i) then 0x7000 else 0x0000

/-- The mask of the gain field (30_encoding.md rule R82). -/
def gainMask (p : Params) : Word := 0x3F#16 <<< p.gainLsb.val

/-- The value SET_GAIN sends: `CFG_DEFAULT` with the gain field replaced (44_color_api.md rule R182). -/
def gainValue (p : Params) (gain : BitVec 6) : Word :=
  (p.cfgDefault &&& ~~~(gainMask p)) ||| (gain.setWidth 16 <<< p.gainLsb.val)

/-- Three channel values of one colour. -/
abbrev Color := Level × Level × Level

/-- `(255, 255, 255)` (44_color_api.md rule R184). -/
def white : Color := (255, 255, 255)

/-- The indicator override by LED index (44_color_api.md rule R184). -/
def override (p : Params) (index : Nat) (c : Color) (ind : Bool) : Color :=
  if p.indicatorIndex = some index ∧ ind = true then white else c

/-- The place of the indicator LED, if one is defined. -/
def indicatorPos (p : Params) : Option LedPos := p.indicatorIndex.bind fun i => p.ledPos[i]?

/-- The indicator override by slot, as SET_COLOR_ALL applies it (44_color_api.md rule R181). -/
def slotColor (p : Params) (row col : Nat) (c : Color) (ind : Bool) : Color :=
  if (indicatorPos p).map (fun q => (q.row.toNat, q.col.toNat)) = some (row, col) ∧ ind = true then white else c

/-- The row TICK switches off: `(CURSOR + ROW_COUNT − 1) mod ROW_COUNT` (43_row_scheduler.md rule R170). -/
def prevRow (s : State) : Nat := (s.cursor + s.params.rowCount - 1) % s.params.rowCount

/-- `(CURSOR + 1) mod ROW_COUNT` (43_row_scheduler.md rule R170). -/
def nextRow (s : State) : Nat := (s.cursor + 1) % s.params.rowCount

end Sys2Proof.Machine
end

