-- ==== Sys2Proof/Machine/BitPlane.lean ====
section
/-! DEFINITION. The unit bit_plane_encoder: ENCODE and its word-write step (41_bit_plane_encoder.md rules R120, R121). -/

namespace Sys2Proof.Machine

/-- `ENC_LOOKUP`: the operands latched and the three gamma values looked up, no plane written yet (rule R121). -/
def startEncoder (p : Params) (row col : Nat) (c : Color) : Encoder where
  row := row
  col := col
  gr := p.gammaAt c.1
  gg := p.gammaAt c.2.1
  gb := p.gammaAt c.2.2
  p := 0

/-- `ENC_WR(p)`: one word write (rule R121). -/
def writePlane (e : Encoder) (s : State) : State :=
  { s with fb := fbWrite s.fb (wordAddr e.row e.col e.p) (planeWord e.gr e.gg e.gb e.p) }

/-- The next `n` word writes, in ascending plane order (rule R120). -/
def writePlanes (e : Encoder) (n : Nat) (s : State) : State :=
  match n with
  | 0 => s
  | n + 1 => writePlanes { e with p := e.p + 1 } n (writePlane e s)

/-- The whole of ENCODE on a legal slot: the look-ups, then planes 0 to 15 (rule R120). -/
def encodeSlot (row col : Nat) (c : Color) (s : State) : State :=
  writePlanes (startEncoder s.params row col c) 16 s

/-- ENCODE (41_bit_plane_encoder.md rule R120). DIRTY is not set (44_color_api.md rule R185). -/
def execEncode (row : BitVec 8) (col : BitVec 4) (r g b : Level) (s : State) : Result :=
  checkRow row.toNat s fun s => .next (encodeSlot row.toNat col.toNat (r, g, b) s)

end Sys2Proof.Machine
end

