-- ==== Sys2Proof/Machine/Engine.lean ====
section
/-! DEFINITION. The unit bit_bang_protocol_engine: the pin micro-operations, WRCFG, DRAIN and its frames GLATCH and PWMRST
(42_protocol_engine.md rules R130 to R139). -/

namespace Sys2Proof.Machine

/-- The events of one PULSE (rule R130). -/
def pulseEvents : List PinEvent := [.clkHi, .clkLo]

/-- The events of `n` PULSEs. -/
def pulses (n : Nat) : List PinEvent := (List.replicate n pulseEvents).flatten

/-- The frame `F_ENWR`: one PULSE with LE low, 15 with LE high (rule R134 phase A). -/
def enableWriteEvents : List PinEvent := pulseEvents ++ [.leHi] ++ pulses 15 ++ [.leLo]

/-- Pulse `i` of the frame `F_CFG(value)`: LE rises after the pulse of index 5 (rule R134 phase B). -/
def configPulse (value : Word) (i : Nat) : List PinEvent :=
  .data (configWord value i) :: pulseEvents ++ (if i = 5 then [.leHi] else [])

/-- The frame `F_CFG(value)` (rule R134 phase B). -/
def configEvents (value : Word) : List PinEvent :=
  (List.range 16).flatMap (configPulse value) ++ [.leLo]

/-- The events of WRCFG (rule R134). -/
def wrcfgEvents (value : Word) : List PinEvent := enableWriteEvents ++ configEvents value

/-- Bit slot `i` of a transfer group: the word, LE rising before the pulse in slot 15, the pulse (rule R136). -/
def slotEvents (w : Word) (i : Nat) : List PinEvent :=
  .data w :: (if i = 15 then [.leHi] else []) ++ pulseEvents

/-- The frame `F_GROUP(row, g)`: column = slot, plane = 15 − g (rule R136). -/
def groupEvents (m : List FbCell) (row g : Nat) : List PinEvent :=
  (List.range 16).flatMap (fun i => slotEvents (fbRead m (wordAddr row i (15 - g))) i) ++ [.leLo]

/-- The frame `F_GLATCH`: LE rises before pulse 13 (rule R137). -/
def glatchEvents : List PinEvent := pulses 13 ++ [.leHi] ++ pulses 3 ++ [.leLo]

/-- The frame `F_PWMRST` (rule R138). -/
def pwmrstEvents : List PinEvent := pulses 3 ++ [.leHi] ++ pulses 13 ++ [.leLo]

/-- The events of DRAIN (rule R136). The frame buffer cannot change while they are emitted, since DRAIN is atomic
(20_memory.md rule R61), so each word is the one at the moment its slot is reached (rule R66). -/
def drainEvents (m : List FbCell) (row : Nat) : List PinEvent :=
  (List.range 16).flatMap (groupEvents m row) ++ glatchEvents ++ pwmrstEvents

/-- WRCFG as INIT and SET_GAIN use it too (rule R134). -/
def writeConfig (value : Word) (s : State) : Result := emitAll (wrcfgEvents value) s

/-- DRAIN as TICK uses it too (rule R136). -/
def drainRow (row : Nat) (s : State) : Result := checkRow row s fun s => emitAll (drainEvents s.fb row) s

/-- PULSE (rule R130). -/
def execPulse (s : State) : Result := emitAll pulseEvents s

/-- LE_HI (rule R131). -/
def execLeHi (s : State) : Result := emit .leHi s

/-- LE_LO (rule R132): the receivers execute the command the count selects (rule R140). -/
def execLeLo (s : State) : Result := emit .leLo s

/-- DOUT_WR (rule R133). -/
def execDoutWr (w : Word) (s : State) : Result := emit (.data w) s

/-- WRCFG (rule R134). -/
def execWrcfg (value : Word) (s : State) : Result := writeConfig value s

/-- DRAIN (rule R136). -/
def execDrain (row : BitVec 8) (s : State) : Result := drainRow row.toNat s

/-- GLATCH (rule R137). -/
def execGlatch (s : State) : Result := emitAll glatchEvents s

/-- PWMRST (rule R138). -/
def execPwmrst (s : State) : Result := emitAll pwmrstEvents s

end Sys2Proof.Machine
end

