-- ==== Sys2Proof/Machine/Flags.lean ====
section
/-! DEFINITION. The two flags, DIRTY and TICK_EN (10_state.md rules R24, R25). There are no condition codes. -/

namespace Sys2Proof.Machine

/-- `DIRTY <- 1`, by SET_COLOR and SET_COLOR_ALL (44_color_api.md rules R180, R181). -/
def setDirty (s : State) : State := { s with dirty := true }

/-- `DIRTY <- 0`, by the host (44_color_api.md rule R185). -/
def clearDirtyFlag (s : State) : State := { s with dirty := false }

/-- `TICK_EN <- 1`, by INIT (44_color_api.md rule R183). -/
def setTickEn (s : State) : State := { s with tickEn := true }

end Sys2Proof.Machine
end

