-- ==== Sys2Proof/Machine/ColorApi.lean ====
section
/-! DEFINITION. The host operations SET_COLOR, SET_COLOR_ALL, SET_GAIN and INIT (44_color_api.md). -/

namespace Sys2Proof.Machine

/-- SET_COLOR (44_color_api.md rule R180): an index beyond LED_COUNT is silently ignored. ENCODE's row check cannot fail,
because the range of LED_POS is `[0, ROW_COUNT) × [0, 15]` (60_exceptions.md rule R212). -/
def execSetColor (index : BitVec 12) (r g b : Level) (s : State) : Result :=
  .next (match s.params.ledPos[index.toNat]? with
    | none => s
    | some pos =>
      setDirty (encodeSlot pos.row.toNat pos.col.toNat (override s.params index.toNat (r, g, b) s.indicator) s))

/-- The ENCODEs of SET_COLOR_ALL for `n` slots from slot number `slot = row × 16 + col` on, in row-major order
(44_color_api.md rule R181). -/
def encodeSlots (c : Color) (ind : Bool) (slot n : Nat) (s : State) : State :=
  match n with
  | 0 => s
  | n + 1 =>
    encodeSlots c ind (slot + 1) n
      (encodeSlot (slot / 16) (slot % 16) (slotColor s.params (slot / 16) (slot % 16) c ind) s)

/-- SET_COLOR_ALL (44_color_api.md rule R181). -/
def execSetColorAll (r g b : Level) (s : State) : Result :=
  .next (setDirty (encodeSlots (r, g, b) s.indicator 0 (s.params.rowCount * 16) s))

/-- SET_GAIN (44_color_api.md rule R182). -/
def execSetGain (gain : BitVec 6) (s : State) : Result := writeConfig (gainValue s.params gain) s

/-- The first line of INIT: `ROW_SET r, 0` for every row, ascending (44_color_api.md rule R183). -/
def allRowsOff (s : State) : State :=
  (List.range s.params.rowCount).foldl (fun t r => setRow r false t) s

/-- INIT (44_color_api.md rule R183): rows off, cursor 0, the default configuration, then ticks enabled. FB and DIRTY are not
written. -/
def execInit (s : State) : Result :=
  andThen (writeConfig s.params.cfgDefault { allRowsOff s with cursor := 0 }) fun t => .next (setTickEn t)

end Sys2Proof.Machine
end

