-- ==== Sys2Proof/Machine/Interleave.lean ====
section
/-! DEFINITION. Host operations of which the environment interrupts the middle: where a tick may fall inside an ENCODE, a
SET_COLOR or a SET_COLOR_ALL, and how the operation goes on afterwards (20_memory.md rules R61 to R63; 41_bit_plane_encoder.md
rule R121; 60_exceptions.md rules R212 to R214). -/

namespace Sys2Proof.Machine

/-- The encoder at the start of slot number `slot` of a SET_COLOR_ALL (44_color_api.md rule R181). -/
def slotEncoder (p : Params) (c : Color) (ind : Bool) (slot : Nat) : Encoder :=
  startEncoder p (slot / 16) (slot % 16) (slotColor p (slot / 16) (slot % 16) c ind)

/-- The operation as one that the environment can interrupt, before its first sub-step; none where it is atomic (20_memory.md
rule R61) or writes nothing (a refused ENCODE, an ignored SET_COLOR). Under `mask_tick` one ENCODE is atomic and only
SET_COLOR_ALL has a middle (rules R62, R63). -/
def jobOf (i : Instr) (s : State) : Option Job :=
  match i with
  | .encode row col r g b =>
    if s.params.excl = .noExcl ∧ row.toNat < s.params.rowCount then
      some ⟨.encode, startEncoder s.params row.toNat col.toNat (r, g, b)⟩
    else none
  | .setColor index r g b =>
    if s.params.excl = .noExcl then
      s.params.ledPos[index.toNat]?.map fun pos =>
        ⟨.setColor, startEncoder s.params pos.row.toNat pos.col.toNat (override s.params index.toNat (r, g, b) s.indicator)⟩
    else none
  | .setColorAll r g b => some ⟨.setColorAll r g b s.indicator 0, slotEncoder s.params (r, g, b) s.indicator 0⟩
  | .init => none
  | .setGain _ => none
  | .wrcfg _ => none
  | .drain _ => none
  | .tick => none
  | .glookup _ => none
  | .pulse => none
  | .leHi => none
  | .leLo => none
  | .doutWr _ => none
  | .glatch => none
  | .pwmrst => none
  | .rowSet _ _ => none
  | .dataLatch _ => none
  | .globalLatch _ => none
  | .readCfg _ => none
  | .writeCfg _ => none
  | .pwmReset => none
  | .enWriteCfg _ => none

/-- What follows the sixteenth word write of an ENCODE: the operation ends, with DIRTY set where it is one of the Color API's,
or SET_COLOR_ALL goes on to its next slot. -/
def endEncode (k : JobKind) (s : State) : State :=
  match k with
  | .encode => { s with busy := none }
  | .setColor => setDirty { s with busy := none }
  | .setColorAll r g b ind slot =>
    if slot + 1 < s.params.rowCount * 16 then
      { s with busy := some ⟨.setColorAll r g b ind (slot + 1), slotEncoder s.params (r, g, b) ind (slot + 1)⟩ }
    else setDirty { s with busy := none }

/-- How many word writes one sub-step makes: one under `EXCL = none`, all that are left of the ENCODE under `mask_tick`
(20_memory.md rule R62). -/
def subStepWrites (p : Params) (e : Encoder) : Nat :=
  match p.excl with
  | .noExcl => 1
  | .maskTick => 16 - e.p

/-- One sub-step of the operation in progress: a word write, or an ENCODE under `mask_tick`. -/
def subStep (j : Job) (s : State) : State :=
  let n := subStepWrites s.params j.enc
  let t := writePlanes j.enc n s
  if j.enc.p + n < 16 then { t with busy := some { j with enc := { j.enc with p := j.enc.p + n } } }
  else endEncode j.kind t

/-- Up to `k` sub-steps of the operation in progress. -/
def runFor (k : Nat) (s : State) : State :=
  match k with
  | 0 => s
  | k + 1 =>
    match s.busy with
    | none => s
    | some j => runFor k (subStep j s)

/-- The operation in progress, if there is one, runs to its end: no operation has more sub-steps than the frame buffer has
words. -/
def finishJob (s : State) : State := runFor (s.params.rowCount * 256) s

end Sys2Proof.Machine
end

