-- ==== Sys2Proof/Machine/Scheduler.lean ====
section
/-! DEFINITION. The unit row_multiplexer_scheduler: TICK and ROW_SET (43_row_scheduler.md rules R170, R171, R175). -/

namespace Sys2Proof.Machine

/-- Step 4 of TICK: the cursor advances with wraparound (43_row_scheduler.md rule R170). -/
def advanceCursor (s : State) : State := { s with cursor := nextRow s }

/-- The four steps of TICK, in their order (43_row_scheduler.md rule R170; 70_reset_and_hazards.md rule R255). -/
def tickBody (s : State) : Result :=
  andThen (drainRow s.cursor (setRow (prevRow s) false s)) fun t =>
    .next (advanceCursor (setRow t.cursor true t))

/-- TICK (43_row_scheduler.md rules R170, R175). -/
def execTick (s : State) : Result := takeTick tickBody s

/-- ROW_SET (43_row_scheduler.md rule R171). A row beyond ROW_COUNT has no switch: refused. -/
def execRowSet (r : BitVec 8) (v : Bool) (s : State) : Result :=
  checkRow r.toNat s fun s => .next (setRow r.toNat v s)

end Sys2Proof.Machine
end

