-- ==== Sys2Proof/Machine/Strobes.lean ====
section
/-! DEFINITION. The strobe commands as the receivers execute them (42_protocol_engine.md rules R141 to R146). The pulse count
an operation carries selects the command and does not change its effect. -/

namespace Sys2Proof.Machine

/-- DATA_LATCH (rule R141). -/
def execDataLatch (s : State) : Result := .next { s with chips := s.chips.dataLatch }

/-- GLOBAL_LATCH (rule R142). -/
def execGlobalLatch (s : State) : Result := .next { s with chips := s.chips.globalLatch }

/-- READ_CFG (rule R143). -/
def execReadCfg (s : State) : Result := .next { s with chips := s.chips.readCfg }

/-- WRITE_CFG (rule R144). -/
def execWriteCfg (s : State) : Result := .next { s with chips := s.chips.writeCfg }

/-- PWM_RESET (rule R146). -/
def execPwmReset (s : State) : Result := .next { s with chips := s.chips.pwmReset }

/-- EN_WRITE_CFG (rule R145). -/
def execEnWriteCfg (s : State) : Result := .next { s with chips := s.chips.enWriteCfg }

end Sys2Proof.Machine
end

