-- ==== Sys2Proof/Machine/Dispatch.lean ====
section
/-! DEFINITION. One arm for each operation: its meaning. -/

namespace Sys2Proof.Machine

/-- The meaning of an operation, performed whole. -/
def exec (i : Instr) (s : State) : Host.Outcome State Fault Refusal :=
  match i with
  | .init => Sys2Proof.Machine.execInit s
  | .encode row col r g b => Sys2Proof.Machine.execEncode row col r g b s
  | .setColor index r g b => Sys2Proof.Machine.execSetColor index r g b s
  | .setColorAll r g b => Sys2Proof.Machine.execSetColorAll r g b s
  | .setGain gain => Sys2Proof.Machine.execSetGain gain s
  | .wrcfg value => Sys2Proof.Machine.execWrcfg value s
  | .drain row => Sys2Proof.Machine.execDrain row s
  | .tick => Sys2Proof.Machine.execTick s
  | .glookup v => Sys2Proof.Machine.execGlookup v s
  | .pulse => Sys2Proof.Machine.execPulse s
  | .leHi => Sys2Proof.Machine.execLeHi s
  | .leLo => Sys2Proof.Machine.execLeLo s
  | .doutWr w => Sys2Proof.Machine.execDoutWr w s
  | .glatch => Sys2Proof.Machine.execGlatch s
  | .pwmrst => Sys2Proof.Machine.execPwmrst s
  | .rowSet r v => Sys2Proof.Machine.execRowSet r v s
  | .dataLatch _ => Sys2Proof.Machine.execDataLatch s
  | .globalLatch _ => Sys2Proof.Machine.execGlobalLatch s
  | .readCfg _ => Sys2Proof.Machine.execReadCfg s
  | .writeCfg _ => Sys2Proof.Machine.execWriteCfg s
  | .pwmReset => Sys2Proof.Machine.execPwmReset s
  | .enWriteCfg _ => Sys2Proof.Machine.execEnWriteCfg s

end Sys2Proof.Machine
end

