-- ==== Sys2Proof/Machine/Environment.lean ====
section
/-! DEFINITION. What the environment can do to the block, and who moves next (00_scope.md rule R9; 60_exceptions.md rules R212,
R235, R236). -/

namespace Sys2Proof.Machine

/-- A command word taken from the command port and performed whole; a reserved opcode is refused (30_encoding.md rule R89
(b)). -/
def runCommand (w : CommandWord) (s : State) : Result :=
  match decode w with
  | .ok i => exec i s
  | .error _ => .refused .reservedOp

/-- A command word of which an event of the environment interrupts the middle, after `k` sub-steps. An atomic operation holds
the event off until it ends: for a tick as the spec says (20_memory.md rule R61; 60_exceptions.md rule R212), for a reset by the
model's choice (DESIGN CHOICE, unsafe, log entry 26). -/
def runCommandUntil (w : CommandWord) (k : Nat) (s : State) : Result :=
  match decode w with
  | .ok i =>
    match jobOf i s with
    | some j => .next (runFor k { s with busy := some j })
    | none => exec i s
  | .error _ => .refused .reservedOp

/-- The reset event (70_reset_and_hazards.md rule R240): the block's state at its reset values and the pin trace empty, with no
pin event. The chips are not reset by it (rule R241); the host's level and what the environment does next are its own. -/
def resetEvent (s : State) : State :=
  { State.resetWith s.params (fun c => (s.chips.chip c).cfg) with
    chips := s.chips, indicator := s.indicator, stim := s.stim }

/-- Who moves next, and the move: the head of `stim` says what the environment does. BG takes a new command only when it has
ended the one in progress (00_scope.md rule R9), so with a command waiting, or nothing at all, an operation in progress runs
to its end. With nothing to do the block waits (70_reset_and_hazards.md rule R240). A reset is served between moves, so never inside
a TICK, a DRAIN, a WRCFG or another atomic operation, and never leaves the receivers in the middle of a frame: the spec leaves
open when it may fall, and this is the model's choice (DESIGN CHOICE, unsafe, log entry 26). -/
def moveNext (s : State) : Result :=
  match s.stim with
  | [] => .next (finishJob s)
  | .cmd w :: rest =>
    match s.busy with
    | some _ => .next (finishJob s)
    | none => runCommand w { s with stim := rest }
  | .cmdUntil w k :: rest =>
    match s.busy with
    | some _ => .next (finishJob s)
    | none => runCommandUntil w k { s with stim := rest }
  | .runUntil k :: rest => .next (runFor k { s with stim := rest })
  | .tick :: rest => exec .tick { s with stim := rest }
  | .tickInTick :: rest => tickDuringTick { s with stim := rest }
  | .indicator level :: rest => .next { s with stim := rest, indicator := level }
  | .clearDirty :: rest => .next (clearDirtyFlag { s with stim := rest })
  | .reset :: rest => .next (resetEvent { s with stim := rest })

/-- The state in which the next thing that happens is the host putting `w` on the command port of a block with no operation in
progress. -/
def withCommand (s : State) (w : CommandWord) : State := { s with busy := none, stim := .cmd w :: s.stim }

end Sys2Proof.Machine
end

