-- ==== Sys2Proof/Machine/Step.lean ====
section
/-! DEFINITION. One step of the machine. -/

namespace Sys2Proof.Machine

/-- One step: the next move, as `stim` and the operation in progress say. -/
def step (s : State) : Host.Outcome State Fault Refusal := moveNext s

/-- The state with an operation of the table placed where step takes its next one: the command port (30_encoding.md rule R84).
A code that is no command word is a strobe's pulse count, which is read off the wires and placed nowhere (rule R85). -/
def State.withFetchWord (s : State) (nbits w : Nat) : State :=
  if nbits = 40 then withCommand s (BitVec.ofNat 40 w) else s

end Sys2Proof.Machine
end

