-- ==== Sys2Proof/Safety.lean ====
section
/-! DEFINITION. The terms in which claims about the machine are stated: good runs (60_exceptions.md rule R236), the invariants
of 10_state.md rule R38 and 43_row_scheduler.md rule R174, the slot decoder (41_bit_plane_encoder.md rule R122), the strobe counts and
the pacing of a list of pin events (30_encoding.md rule R83; 42_protocol_engine.md rule R139), and what a drain sends (rule R155). -/

namespace Sys2Proof.Machine

/-- A run is good when no refusal and no fault occurred in it (60_exceptions.md rule R236). -/
def GoodRun (n : Nat) (s : State) : Prop := ∃ t, Sys2Proof.core.run n s = .next t

/-! ### Invariants -/

/-- (I-a): every frame-buffer word has bits 15 and 11:0 equal to 0 (10_state.md rule R38). -/
def FbClean (m : List FbCell) : Prop := ∀ a, fbRead m a &&& 0x8FFF#16 = 0

/-- Every listed word is one the address space has (20_memory.md rule R51). -/
def FbInRange (p : Params) (m : List FbCell) : Prop := ∀ c ∈ m, c.1 < p.rowCount * 256

/-- (I-b): `0 ≤ CURSOR < ROW_COUNT` (10_state.md rule R38). -/
def CursorOk (s : State) : Prop := s.cursor < s.params.rowCount

/-- (I-c): `LE = 0` and `DCLK = 0` between operations (10_state.md rule R38). -/
def PinsIdle (s : State) : Prop := s.le = false ∧ s.dclk = false

/-- (I-d): no row is lit, or exactly the one before the cursor (10_state.md rule R38; 43_row_scheduler.md rule R174). -/
def LitRowOk (s : State) : Prop :=
  s.rowEn.length = s.params.rowCount ∧
  ((∀ r, s.rowOn r = false) ∨ (∀ r, s.rowOn r = true ↔ r = prevRow s))

/-- The receivers between operations: no word is waiting for a Global Latch and they are not armed (42_protocol_engine.md rule
R155). -/
def ChipsIdle (s : State) : Prop := s.chips.armed = false ∧ ∀ c, (s.chips.chip c).latched = []

/-- The operation in progress is one the machine can be in the middle of: its encoder holds the look-ups of one colour and a
plane still to be written, its row and column exist, a SET_COLOR_ALL's encoder is that of its slot, and under `mask_tick` only a
SET_COLOR_ALL has a middle, between two of its ENCODEs (20_memory.md rules R62, R63). -/
def JobOk (p : Params) (j : Job) : Prop :=
  j.enc.p < 16 ∧ j.enc.row < p.rowCount ∧ j.enc.col < 16 ∧
  (p.excl = .maskTick → j.enc.p = 0) ∧
  match j.kind with
  | .encode => p.excl = .noExcl ∧ ∃ c, j.enc = { startEncoder p j.enc.row j.enc.col c with p := j.enc.p }
  | .setColor => p.excl = .noExcl ∧ ∃ c, j.enc = { startEncoder p j.enc.row j.enc.col c with p := j.enc.p }
  | .setColorAll r g b ind slot =>
    slot < p.rowCount * 16 ∧ j.enc = { slotEncoder p (r, g, b) ind slot with p := j.enc.p }

/-- What every state the machine reaches satisfies (10_state.md rule R38 (I-a) to (I-d), with the constraints on the parameters
and the two pieces of state rule R38 does not mention: the operation in progress and the receivers). -/
structure Inv (s : State) : Prop where
  params : s.params.Valid
  fbWf : FbWf s.fb
  fbInRange : FbInRange s.params s.fb
  fbClean : FbClean s.fb
  cursor : CursorOk s
  pins : PinsIdle s
  litRow : LitRowOk s
  chips : ChipsIdle s
  job : ∀ j ∈ s.busy, JobOk s.params j

/-- One slot holds zeros only, or the encoding of one colour (10_state.md rule R38 (I-e)). -/
def SlotWhole (p : Params) (m : List FbCell) (row col : Nat) : Prop :=
  (∀ k < 16, fbRead m (wordAddr row col k) = 0) ∨
  ∃ r g b : Level, ∀ k < 16,
    fbRead m (wordAddr row col k) = planeWord (p.gammaAt r) (p.gammaAt g) (p.gammaAt b) k

/-- (I-e): every slot is whole (10_state.md rule R38). -/
def AllSlotsWhole (s : State) : Prop :=
  ∀ row < s.params.rowCount, ∀ col < 16, SlotWhole s.params s.fb row col

/-! ### The slot decoder -/

/-- `DEC(row, col, c)`: bit `c` of the words of planes 0 to 15, plane 0 leftmost (41_bit_plane_encoder.md rule R122). -/
def State.dec (s : State) (row col c : Nat) : Word :=
  (List.range 16).foldl (fun acc p => acc.shiftConcat ((s.word row col p).getLsbD c)) 0

/-! ### Lists of pin events -/

/-- The strobe counts of a list of pin events: the number of `C+` between each `L+` and the next `L-` (30_encoding.md rule R83);
`n` is the count of the strobe that is open, if one is. -/
def strobeCounts (n : Option Nat) (es : List PinEvent) : List Nat :=
  match es with
  | [] => []
  | .leHi :: rest => strobeCounts (some 0) rest
  | .clkHi :: rest => strobeCounts (n.map (· + 1)) rest
  | .leLo :: rest =>
    match n with
    | some k => k :: strobeCounts none rest
    | none => strobeCounts none rest
  | .clkLo :: rest => strobeCounts n rest
  | .data _ :: rest => strobeCounts n rest
  | .row _ _ :: rest => strobeCounts n rest

/-- The words of the `D(w)` events, in order. -/
def dataWords (es : List PinEvent) : List Word :=
  es.filterMap fun e =>
    match e with
    | .data w => some w
    | .clkHi => none
    | .clkLo => none
    | .leHi => none
    | .leLo => none
    | .row _ _ => none

/-- From pin levels `le` and `dclk` the events keep the pacing of 42_protocol_engine.md rule R139 (a), (b): `L+` and `L-` alternate,
`C+` and `C-` alternate, nothing falls between a `C+` and its `C-`, and both pins end at 0. -/
def paced (le dclk : Bool) (es : List PinEvent) : Bool :=
  match es with
  | [] => !le && !dclk
  | .clkHi :: rest => !dclk && paced le true rest
  | .clkLo :: rest => dclk && paced le false rest
  | .leHi :: rest => !le && !dclk && paced true dclk rest
  | .leLo :: rest => le && !dclk && paced false dclk rest
  | .data _ :: rest => !dclk && paced le dclk rest
  | .row _ _ :: rest => !le && !dclk && paced le dclk rest

/-- `W(g, c)`: the word a drain of `row` latches into receiver `c` in group `g` (42_protocol_engine.md rule R155 (b)). -/
def drainedWord (s : State) (row g : Nat) (c : Channel) : Word :=
  (List.range 16).foldl
    (fun acc i => acc ||| (bitOf (s.word row i (15 - g)) (dataBit c) <<< (15 - i))) 0

/-- The pin events of one TICK at cursor `cur` with frame buffer `m` (43_row_scheduler.md rule R170). -/
def tickEvents (p : Params) (m : List FbCell) (cur : Nat) : List PinEvent :=
  .row ((cur + p.rowCount - 1) % p.rowCount) false :: drainEvents m cur ++ [.row cur true]

/-- `k` TICKs, one after another. -/
def ticks (k : Nat) (s : State) : Result :=
  match k with
  | 0 => .next s
  | k + 1 => andThen (exec .tick s) (ticks k)

end Sys2Proof.Machine
end

