-- ==== Sys2Proof/Certificates/Slice0/Obligations.lean ====
section
/-! DEFINITION. The statements for the provers. Each docstring cites the rule of spec/ it formalises. -/

open Sys2Proof Sys2Proof.Machine

/-! ### Codes -/

/-- 30_encoding.md rules R83 to R85: every well-formed operation that has a code is read back from it, whatever its operands. -/
def Obligations.DecodeEncodeRoundTrip : Prop :=
  ∀ (i : Instr) (c : Code), i.wellFormed = true → encode i = some c → decodeCode c = .ok i

/-- 30_encoding.md rules R84, R85, R89 (c), R83: a command word that decodes is its operation's code but for unused bits, and a pulse
count that decodes is its operation's code and makes it well formed. -/
def Obligations.DecodedCodeReencodes : Prop :=
  (∀ (w : CommandWord) (i : Instr), decode w = .ok i →
    encode i = some (.command (w &&& usedBits w)) ∧ i.wellFormed = true) ∧
  (∀ (n : Nat) (i : Instr), decodeStrobe n = .ok i → encode i = some (.strobe n) ∧ i.wellFormed = true)

/-- 30_encoding.md rule R89 (c): two command words that differ only in unused fields are the same operation. -/
def Obligations.UnusedFieldsIgnored : Prop :=
  ∀ w w' : CommandWord, w &&& usedBits w = w' &&& usedBits w → decode w = decode w'

/-- 30_encoding.md rule R89 (b), 60_exceptions.md rule R203: opcodes 0x0 and 0x8 to 0xF, and no others, are reserved, and a command
word carrying one is refused, whether or not an event would have interrupted it. -/
def Obligations.ReservedOpcodesRefused : Prop :=
  (∀ w : CommandWord, decode w = .error (.reservedOp (opField w)) ↔
    (opField w).toNat = 0 ∨ 8 ≤ (opField w).toNat) ∧
  (∀ (s : State) (w : CommandWord) (k : Nat) (rest : List Stim), s.busy = none →
    ((opField w).toNat = 0 ∨ 8 ≤ (opField w).toNat) →
    (s.stim = .cmd w :: rest ∨ s.stim = .cmdUntil w k :: rest) → step s = .refused .reservedOp)

/-- 30_encoding.md rules R84, R85 and the command words of 95_test_vectors.md (V67, P1, P2, P3, P4): sample words. -/
def Obligations.SampleWordsDecode : Prop :=
  decode 0x1FFFFFFFFF#40 = .ok .init ∧
  decode 0x2012AA550F#40 = .ok (.encode 1 2 0xAA 0x55 0x0F) ∧
  decode 0x33E70A141E#40 = .ok (.setColor 999 10 20 30) ∧
  decode 0x4000808080#40 = .ok (.setColorAll 0x80 0x80 0x80) ∧
  decode 0x50000000FF#40 = .ok (.setGain 0x3F) ∧
  decode 0x600000A5C3#40 = .ok (.wrcfg 0xA5C3) ∧
  decode 0x7050000000#40 = .ok (.drain 5) ∧
  decode 0x9000010000#40 = .error (.reservedOp 9) ∧
  decodeStrobe 2 = .ok (.globalLatch 2) ∧
  decodeStrobe 11 = .ok (.writeCfg 11)

/-- 30_encoding.md rule R83: the classification function, and that the count it is applied to is the number of `C+` events from
the `L+` to the `L-`, whatever else lies between them and whatever the receivers counted before. -/
def Obligations.StrobeCountSelectsCommand : Prop :=
  (∀ n : Nat, classify n =
    if n ≤ 1 then some .dataLatch
    else if n ≤ 3 then some .globalLatch
    else if n ≤ 5 then some .readCfg
    else if n ≤ 9 then none
    else if n ≤ 11 then some .writeCfg
    else if n = 12 then none
    else if n = 13 then some .pwmReset
    else if n ≤ 15 then some .enWriteCfg
    else none) ∧
  (∀ (es : List PinEvent) (s : State), .leHi ∉ es → .leLo ∉ es →
    ∃ t, emitAll (.leHi :: es) s = .next t ∧ t.chips.nle = es.count .clkHi ∧
      (∀ c, classify (es.count .clkHi) = some c → ∃ u, exec .leLo t = .next u ∧ u.chips = t.chips.execute c) ∧
      (classify (es.count .clkHi) = none → exec .leLo t = .fault .unspecStrobe))

/-! ### Steps -/

/-- 00_scope.md rule R9, 30_encoding.md rule R84: with no operation in progress, a command word on the port that decodes to an
operation is taken off the port and performed. -/
def Obligations.StepRunsCommand : Prop :=
  ∀ (s : State) (w : CommandWord) (i : Instr) (rest : List Stim), s.busy = none → s.stim = .cmd w :: rest →
    decode w = .ok i → step s = exec i { s with stim := rest }

/-- 60_exceptions.md rules R210, R213: a tick event performs TICK at once, also when it falls inside an interrupted host operation,
with nothing saved. -/
def Obligations.StepServesTick : Prop :=
  ∀ (s : State) (rest : List Stim), s.stim = .tick :: rest → step s = exec .tick { s with stim := rest }

/-- 60_exceptions.md rule R211: a second tick event while TICK is still running is the fault OVERRUN, never a nested, queued or
dropped TICK. That a tick event can be placed so in an untimed model is the model's choice (log entry 8), as is that both are
ignored while TICK_EN = 0. -/
def Obligations.TickInsideTickOverruns : Prop :=
  ∀ (s : State) (rest : List Stim), s.stim = .tickInTick :: rest →
    step s = if s.tickEn then .fault .overrun else .next { s with stim := rest }

/-- 44_color_api.md rule R185, 10_state.md rule R33, 70_reset_and_hazards.md rule R240: the host clears DIRTY and sets the indicator
level at any moment, and with nothing to do the block waits. -/
def Obligations.HostEventsTouchTheirBitOnly : Prop :=
  (∀ (s : State) (rest : List Stim), s.stim = .clearDirty :: rest →
    step s = .next { s with stim := rest, dirty := false }) ∧
  (∀ (s : State) (v : Bool) (rest : List Stim), s.stim = .indicator v :: rest →
    step s = .next { s with stim := rest, indicator := v }) ∧
  (∀ s : State, s.stim = [] → s.busy = none → step s = .next s)

/-- 20_memory.md rules R61, R62, 60_exceptions.md rule R212 (2): a tick that arrives inside an atomic operation is held off until the
operation has ended. INIT, SET_GAIN, WRCFG and DRAIN are atomic always, ENCODE and SET_COLOR under `mask_tick`. That every other
event, a reset among them, is held off too is the model's choice (log entry 26). -/
def Obligations.AtomicOperationsHoldEventsOff : Prop :=
  ∀ (s : State) (w : CommandWord) (i : Instr) (k : Nat) (rest : List Stim), s.busy = none →
    s.stim = .cmdUntil w k :: rest → decode w = .ok i → (∀ r g b, i ≠ .setColorAll r g b) →
    (s.params.excl = .maskTick ∨ i = .init ∨ (∃ v, i = .setGain v) ∨ (∃ v, i = .wrcfg v) ∨ ∃ r, i = .drain r) →
    step s = exec i { s with stim := rest }

/-! ### Reset -/

/-- 10_state.md rule R37: the state right after reset, for any parameters and any configuration the chips power up with. -/
def Obligations.ResetLeavesListedValues : Prop :=
  ∀ (p : Params) (cfg : Channel → Word) (s : State), s = State.resetWith p cfg →
    s.cursor = 0 ∧ (∀ r, s.rowOn r = false) ∧ s.rowEn.length = p.rowCount ∧ s.tickEn = false ∧ s.dirty = false ∧
    (∀ row col k, s.word row col k = 0x0000) ∧ s.dout = 0x0000 ∧ s.dclk = false ∧ s.le = false ∧
    s.params = p ∧ s.busy = none ∧ s.pinTrace = [] ∧
    (∀ c, (s.chips.chip c).sr = 0 ∧ (s.chips.chip c).cfg = cfg c ∧
      (s.chips.chip c).latched = [] ∧ (s.chips.chip c).active = []) ∧
    s.chips.nle = 0 ∧ s.chips.armed = false ∧ s.chips.pwmResets = 0

/-- 70_reset_and_hazards.md rules R240, R241: the reset event puts the block's state at its reset values, empties the trace, emits no
pin event and does not reset the chips. That the indicator level stays is the model's choice (log entry 17), and so is that a reset
falls between moves and never inside an atomic operation (log entry 26). -/
def Obligations.ResetEventSparesTheChips : Prop :=
  ∀ (s : State) (rest : List Stim), s.stim = .reset :: rest →
    ∃ t, step s = .next t ∧
      t = { State.resetWith s.params (fun c => (s.chips.chip c).cfg) with
            chips := s.chips, indicator := s.indicator, stim := rest } ∧
      t.pinTrace = [] ∧ t.tickEn = false ∧ t.busy = none

/-! ### The gamma ROM -/

/-- 40_gamma_rom.md rule R110: GLOOKUP's result is the ROM entry at its operand, and no state of the block is written. That the
result stands in the field `lookup` is the model's choice (log entry 5). -/
def Obligations.GlookupReadsTheRom : Prop :=
  ∀ (s : State) (v : Level), exec (.glookup v) s = .next { s with lookup := s.params.gamma[v.toNat]'v.isLt }

/-- 40_gamma_rom.md rule R111 (G0), (GM): entry 0 is 0 and the table is monotonically non-decreasing over its full domain. -/
def Obligations.GammaStartsAtZeroAndRises : Prop :=
  ∀ p : Params, p.Valid → p.gammaAt 0 = 0 ∧ ∀ u v : Level, u ≤ v → p.gammaAt u ≤ p.gammaAt v

/-! ### The encoder -/

/-- 30_encoding.md rules R81, R86: the word of plane `k` has bit `15 − k` of the three gamma values in bits 14, 13, 12 and every other
bit 0. -/
def Obligations.PlaneWordPacksThreeBits : Prop :=
  ∀ (gr gg gb : Word) (k : Nat), k < 16 → ∀ n : Nat, (planeWord gr gg gb k).getLsbD n =
    if n = 14 then gr.getLsbD (15 - k)
    else if n = 13 then gg.getLsbD (15 - k)
    else if n = 12 then gb.getLsbD (15 - k)
    else false

/-- 41_bit_plane_encoder.md rule R120, 20_memory.md rule R51: ENCODE on a row there is completes, writes the sixteen words of its slot
and nothing else: every word outside the slot's addresses, every other field of the state, is as before. -/
def Obligations.EncodeWritesItsSlotOnly : Prop :=
  ∀ (s : State) (row : BitVec 8) (col : BitVec 4) (r g b : Level), row.toNat < s.params.rowCount →
    ∃ t, exec (.encode row col r g b) s = .next t ∧ t = { s with fb := t.fb } ∧
      (∀ k < 16, t.word row.toNat col.toNat k =
        planeWord (s.params.gammaAt r) (s.params.gammaAt g) (s.params.gammaAt b) k) ∧
      (∀ a, ¬(wordAddr row.toNat col.toNat 0 ≤ a ∧ a < wordAddr row.toNat col.toNat 0 + 16) →
        fbRead t.fb a = fbRead s.fb a)

/-- 41_bit_plane_encoder.md rule R122: what the slot decoder reconstructs after ENCODE is exactly the three gamma values. -/
def Obligations.EncodedSlotDecodesToGamma : Prop :=
  ∀ (s t : State) (row : BitVec 8) (col : BitVec 4) (r g b : Level), exec (.encode row col r g b) s = .next t →
    t.dec row.toNat col.toNat 14 = s.params.gammaAt r ∧
    t.dec row.toNat col.toNat 13 = s.params.gammaAt g ∧
    t.dec row.toNat col.toNat 12 = s.params.gammaAt b

/-- 41_bit_plane_encoder.md rule R123: (a) idempotence, (b) locality, (c) the unused bits stay zero, (d) ENCODEs of different slots
commute, and of two of the same slot the later wins entirely. -/
def Obligations.EncodeIdempotentLocalCommuting : Prop :=
  (∀ (s t u : State) (row : BitVec 8) (col : BitVec 4) (r g b : Level),
    exec (.encode row col r g b) s = .next t → exec (.encode row col r g b) t = .next u →
    ∀ a, fbRead u.fb a = fbRead t.fb a) ∧
  (∀ (s t : State) (row : BitVec 8) (col : BitVec 4) (r g b : Level),
    exec (.encode row col r g b) s = .next t →
    (∀ row' col' k, col' < 16 → k < 16 → (row', col') ≠ (row.toNat, col.toNat) →
      t.word row' col' k = s.word row' col' k) ∧
    (FbClean s.fb → FbClean t.fb)) ∧
  (∀ (s t t' u u' : State) (row row' : BitVec 8) (col col' : BitVec 4) (r g b r' g' b' : Level),
    exec (.encode row col r g b) s = .next t → exec (.encode row' col' r' g' b') t = .next u →
    exec (.encode row' col' r' g' b') s = .next t' → exec (.encode row col r g b) t' = .next u' →
    ((row', col') ≠ (row, col) → ∀ a, fbRead u.fb a = fbRead u'.fb a) ∧
    ((row', col') = (row, col) → ∀ a, fbRead u.fb a = fbRead t'.fb a))

/-- 20_memory.md rule R54: ENCODE and DRAIN of a row there is not are refused, and of a row there is they are not; with them ROW_SET,
whose operand 43_row_scheduler.md rule R171 gives the same range (that it is refused beyond it is the model's choice, log entry 13). -/
def Obligations.RowBeyondRowCountRefused : Prop :=
  ∀ (s : State) (row : BitVec 8) (col : BitVec 4) (r g b : Level) (v : Bool),
    (exec (.encode row col r g b) s = .refused .outOfRange ↔ s.params.rowCount ≤ row.toNat) ∧
    (exec (.drain row) s = .refused .outOfRange ↔ s.params.rowCount ≤ row.toNat) ∧
    (exec (.rowSet row v) s = .refused .outOfRange ↔ s.params.rowCount ≤ row.toNat)

/-- 20_memory.md rule R68, 41_bit_plane_encoder.md rule R121: with `k` word writes of an ENCODE done under `EXCL = none`, the slot holds
the new planes below `k` and the old ones from `k` on, every other word is as before, and what its decoder reconstructs is the top
`k` bits of the new gamma value above the low `16 − k` bits of the old value. -/
def Obligations.InterruptedEncodeTearsExactly : Prop :=
  ∀ (s : State) (w : CommandWord) (row : BitVec 8) (col : BitVec 4) (r g b : Level) (k : Nat) (rest : List Stim),
    s.params.excl = .noExcl → s.busy = none → s.stim = .cmdUntil w k :: rest →
    decode w = .ok (.encode row col r g b) → row.toNat < s.params.rowCount → k ≤ 16 →
    ∃ t, step s = .next t ∧ t = { s with stim := rest, fb := t.fb, busy := t.busy } ∧
      (t.busy.isSome = true ↔ k < 16) ∧
      (∀ p < 16, t.word row.toNat col.toNat p =
        if p < k then planeWord (s.params.gammaAt r) (s.params.gammaAt g) (s.params.gammaAt b) p
        else s.word row.toNat col.toNat p) ∧
      (∀ a, ¬(wordAddr row.toNat col.toNat 0 ≤ a ∧ a < wordAddr row.toNat col.toNat 0 + 16) →
        fbRead t.fb a = fbRead s.fb a) ∧
      (∀ bit v, (bit, v) ∈ [(14, r), (13, g), (12, b)] → ∀ n < 16, (t.dec row.toNat col.toNat bit).getLsbD n =
        if 16 - k ≤ n then (s.params.gammaAt v).getLsbD n else (s.dec row.toNat col.toNat bit).getLsbD n)

/-- 41_bit_plane_encoder.md rule R121, 20_memory.md rules R62, R63: an ENCODE, SET_COLOR or SET_COLOR_ALL that is interrupted after any
number of sub-steps, and finished later with nothing in between, leaves exactly the state the whole operation leaves. -/
def Obligations.InterruptedOperationEqualsWhole : Prop :=
  ∀ (s : State) (i : Instr) (j : Job) (k : Nat), s.busy = none → jobOf i s = some j →
    exec i s = .next (finishJob (runFor k { s with busy := some j }))

/-- The model's choice, log entry 7: with a command waiting or with nothing else to do, one step ends the operation in progress and
leaves the command on the port. 00_scope.md rule R9 says only that BG performs the host's operations one after another. -/
def Obligations.OperationInProgressEnds : Prop :=
  ∀ (s : State) (w : CommandWord) (k : Nat) (rest : List Stim), Inv s → s.busy.isSome = true →
    (s.stim = [] ∨ s.stim = .cmd w :: rest ∨ s.stim = .cmdUntil w k :: rest) →
    ∃ t, step s = .next t ∧ t.busy = none ∧ t.stim = s.stim

/-! ### Pins and receivers -/

/-- 42_protocol_engine.md rules R130, R131, R133, R151, R152: what PULSE, LE_HI and DOUT_WR write, and that nothing else changes. The
event is emitted also where the pin has that level already. That the effect happens from every state, also where the rules'
preconditions on LE and DCLK fail, is the model's choice (log entry 12). -/
def Obligations.PinMicroOperations : Prop :=
  (∀ s : State, exec .pulse s = .next { s with
    dclk := false, trace := .clkLo :: .clkHi :: s.trace, chips := s.chips.clockIn s.dout s.le }) ∧
  (∀ s : State, exec .leHi s = .next { s with
    le := true, trace := .leHi :: s.trace, chips := { s.chips with nle := 0 } }) ∧
  (∀ (s : State) (w : Word), exec (.doutWr w) s = .next { s with dout := w, trace := .data w :: s.trace })

/-- 42_protocol_engine.md rule R151: on a pulse each receiver's shift register becomes its bits 14:0 above the level of its data line,
which is bit 14, 13 or 12 of DOUT, and the pulse is counted exactly when LE is high. That PULSE completes from every state, also
where its precondition `DCLK = 0` fails, is the model's choice (log entry 12). -/
def Obligations.PulseShiftsDataLinesIn : Prop :=
  ∀ s : State, ∃ t, exec .pulse s = .next t ∧
    t.chips.r.sr = s.chips.r.sr.extractLsb' 0 15 ++ BitVec.ofBool (s.dout.getLsbD 14) ∧
    t.chips.g.sr = s.chips.g.sr.extractLsb' 0 15 ++ BitVec.ofBool (s.dout.getLsbD 13) ∧
    t.chips.b.sr = s.chips.b.sr.extractLsb' 0 15 ++ BitVec.ofBool (s.dout.getLsbD 12) ∧
    (t.chips.nle = if s.le = true then s.chips.nle + 1 else s.chips.nle) ∧
    t.chips.armed = s.chips.armed ∧ t.chips.pwmResets = s.chips.pwmResets ∧
    (∀ c, (t.chips.chip c).cfg = (s.chips.chip c).cfg ∧ (t.chips.chip c).latched = (s.chips.chip c).latched ∧
      (t.chips.chip c).active = (s.chips.chip c).active)

/-- 42_protocol_engine.md rules R132, R140, R147, R153: LE_LO drops LE and the receivers execute the command their count selects; a count
that selects none is a fault. That this is so from every state, also where R132's precondition `LE = 1`, `DCLK = 0` fails, is the
model's choice (log entry 12), and that a count left over from an earlier strobe is used where no `L+` preceded is its inference
(log entry 25). -/
def Obligations.LeLoExecutesTheStrobe : Prop :=
  (∀ (s : State) (c : Strobe), classify s.chips.nle = some c → ∃ t, exec .leLo s = .next t ∧
    t = { s with le := false, trace := .leLo :: s.trace, chips := s.chips.execute c } ∧
    (t.chips.armed = true ↔ c = .enWriteCfg)) ∧
  (∀ s : State, classify s.chips.nle = none → exec .leLo s = .fault .unspecStrobe)

/-- 42_protocol_engine.md rules R141, R142: what the two latch commands do, whatever count selected them. -/
def Obligations.LatchCommandsMoveWords : Prop :=
  ∀ (s : State) (n : Nat),
    (∃ t, exec (.dataLatch n) s = .next t ∧ t = { s with chips := t.chips } ∧ t.chips.armed = false ∧
      t.chips.nle = s.chips.nle ∧ t.chips.pwmResets = s.chips.pwmResets ∧
      ∀ c, (t.chips.chip c).latched = (s.chips.chip c).latched ++ [(s.chips.chip c).sr] ∧
        (t.chips.chip c).sr = (s.chips.chip c).sr ∧ (t.chips.chip c).cfg = (s.chips.chip c).cfg ∧
        (t.chips.chip c).active = (s.chips.chip c).active) ∧
    (∃ t, exec (.globalLatch n) s = .next t ∧ t = { s with chips := t.chips } ∧ t.chips.armed = false ∧
      t.chips.nle = s.chips.nle ∧ t.chips.pwmResets = s.chips.pwmResets ∧
      ∀ c, (t.chips.chip c).active = (s.chips.chip c).latched ∧ (t.chips.chip c).latched = [] ∧
        (t.chips.chip c).sr = (s.chips.chip c).sr ∧ (t.chips.chip c).cfg = (s.chips.chip c).cfg)

/-- 42_protocol_engine.md rules R143, R144, R145, R146: Read Configuration only disarms, Write Configuration copies the shift registers
exactly when the receivers are armed and disarms, Enable Writing Configuration arms, the PWM reset is counted and disarms. -/
def Obligations.ConfigAndResetCommands : Prop :=
  ∀ (s : State) (n : Nat),
    exec (.readCfg n) s = .next { s with chips := { s.chips with armed := false } } ∧
    exec (.enWriteCfg n) s = .next { s with chips := { s.chips with armed := true } } ∧
    exec .pwmReset s = .next { s with chips :=
      { s.chips with pwmResets := s.chips.pwmResets + 1, armed := false } } ∧
    (∃ t, exec (.writeCfg n) s = .next t ∧ t = { s with chips := t.chips } ∧ t.chips.armed = false ∧
      t.chips.nle = s.chips.nle ∧ t.chips.pwmResets = s.chips.pwmResets ∧
      ∀ c, ((t.chips.chip c).cfg = if s.chips.armed = true then (s.chips.chip c).sr else (s.chips.chip c).cfg) ∧
        (t.chips.chip c).sr = (s.chips.chip c).sr ∧ (t.chips.chip c).latched = (s.chips.chip c).latched ∧
        (t.chips.chip c).active = (s.chips.chip c).active)

/-! ### The protocol engine -/

/-- 42_protocol_engine.md rule R134: WRCFG completes from every state; it emits its event list, leaves DOUT at the word of bit 0, DCLK
and LE low, and touches nothing but the pins, the trace and the receivers. -/
def Obligations.WrcfgCompletes : Prop :=
  ∀ (s : State) (v : Word), ∃ t, exec (.wrcfg v) s = .next t ∧
    t = { s with dout := t.dout, dclk := false, le := false, trace := t.trace, chips := t.chips } ∧
    (t.dout = if v.getLsbD 0 = true then 0x7000 else 0x0000) ∧
    t.pinTrace = s.pinTrace ++ wrcfgEvents v

/-- 42_protocol_engine.md rule R135 (derived there from rule R134, whose count 10 is decision D10): the size of WRCFG and its two
strobes, whatever the value is. -/
def Obligations.WrcfgHasFixedSize : Prop :=
  ∀ v : Word, (wrcfgEvents v).count .clkHi = 32 ∧ (wrcfgEvents v).count .clkLo = 32 ∧
    (wrcfgEvents v).count .leHi = 2 ∧ (wrcfgEvents v).count .leLo = 2 ∧
    (dataWords (wrcfgEvents v)).length = 16 ∧ (wrcfgEvents v).length = 84 ∧
    strobeCounts none (wrcfgEvents v) = [15, 10]

/-- 30_encoding.md rule R87: the words WRCFG writes to DOUT, most significant bit first, the bit on all three data lines and every other
bit 0. -/
def Obligations.WrcfgSendsMsbFirst : Prop :=
  ∀ v : Word, dataWords (wrcfgEvents v) =
    (List.range 16).map fun i => if v.getLsbD (15 - i) = true then (0x7000 : Word) else 0x0000

/-- 42_protocol_engine.md rule R155 (a), (c): after WRCFG, from any receiver state, all three receivers hold the value, in the configuration
register and in the shift register, they are not armed, and what they latched and show is undisturbed. -/
def Obligations.WrcfgConfiguresAllChips : Prop :=
  ∀ (s : State) (v : Word), ∃ t, exec (.wrcfg v) s = .next t ∧ t.chips.armed = false ∧
    t.chips.pwmResets = s.chips.pwmResets ∧
    ∀ c, (t.chips.chip c).cfg = v ∧ (t.chips.chip c).sr = v ∧
      (t.chips.chip c).latched = (s.chips.chip c).latched ∧ (t.chips.chip c).active = (s.chips.chip c).active

/-- 42_protocol_engine.md rule R136: DRAIN of a row there is completes; it emits its event list, leaves DOUT at the last word fetched,
DCLK and LE low, and touches nothing but the pins, the trace and the receivers. -/
def Obligations.DrainCompletes : Prop :=
  ∀ (s : State) (row : BitVec 8), row.toNat < s.params.rowCount → ∃ t, exec (.drain row) s = .next t ∧
    t = { s with dout := t.dout, dclk := false, le := false, trace := t.trace, chips := t.chips } ∧
    t.dout = s.word row.toNat 15 0 ∧ t.pinTrace = s.pinTrace ++ drainEvents s.fb row.toNat

/-- 42_protocol_engine.md rules R136, R139 (c): the words a drain writes to DOUT, group by group in reverse plane order and column by
column, and its size and strobes, independent of the data. -/
def Obligations.DrainSendsWholeRow : Prop :=
  ∀ (m : List FbCell) (row : Nat),
    dataWords (drainEvents m row) =
      (List.range 16).flatMap (fun g => (List.range 16).map fun i => fbRead m (wordAddr row i (15 - g))) ∧
    (drainEvents m row).count .clkHi = 288 ∧ (drainEvents m row).count .clkLo = 288 ∧
    (drainEvents m row).count .leHi = 18 ∧ (drainEvents m row).count .leLo = 18 ∧
    (drainEvents m row).length = 868 ∧
    strobeCounts none (drainEvents m row) = List.replicate 16 1 ++ [3, 13]

/-- 42_protocol_engine.md rule R155 (b): what the receivers hold after a drain that began with nothing latched. -/
def Obligations.DrainShowsTheRow : Prop :=
  ∀ (s : State) (row : BitVec 8), row.toNat < s.params.rowCount → (∀ c, (s.chips.chip c).latched = []) →
    ∃ t, exec (.drain row) s = .next t ∧ t.chips.armed = false ∧
      t.chips.pwmResets = s.chips.pwmResets + 1 ∧
      ∀ c, (t.chips.chip c).active = (List.range 16).map (fun g => drainedWord s row.toNat g c) ∧
        (t.chips.chip c).latched = [] ∧ (t.chips.chip c).cfg = (s.chips.chip c).cfg ∧
        (t.chips.chip c).sr = if dataLine (s.word row.toNat 15 0) c = true then 0xFFFF else 0x0000

/-- 42_protocol_engine.md rules R137, R138: GLATCH is a strobe of 3 pulses, the Global Latch, and PWMRST one of 13, the PWM reset; each
completes from every state, emits 34 events, leaves DOUT alone and both pins low. -/
def Obligations.GlatchAndPwmrstComplete : Prop :=
  ∀ s : State,
    (∃ t, exec .glatch s = .next t ∧
      t = { s with dclk := false, le := false, trace := t.trace, chips := t.chips } ∧
      t.pinTrace = s.pinTrace ++ glatchEvents ∧ glatchEvents.length = 34 ∧ strobeCounts none glatchEvents = [3] ∧
      t.chips.armed = false ∧ t.chips.pwmResets = s.chips.pwmResets ∧
      ∀ c, (t.chips.chip c).active = (s.chips.chip c).latched ∧ (t.chips.chip c).latched = [] ∧
        (t.chips.chip c).cfg = (s.chips.chip c).cfg) ∧
    (∃ t, exec .pwmrst s = .next t ∧
      t = { s with dclk := false, le := false, trace := t.trace, chips := t.chips } ∧
      t.pinTrace = s.pinTrace ++ pwmrstEvents ∧ pwmrstEvents.length = 34 ∧ strobeCounts none pwmrstEvents = [13] ∧
      t.chips.armed = false ∧ t.chips.pwmResets = s.chips.pwmResets + 1 ∧
      ∀ c, (t.chips.chip c).active = (s.chips.chip c).active ∧ (t.chips.chip c).latched = (s.chips.chip c).latched ∧
        (t.chips.chip c).cfg = (s.chips.chip c).cfg)

/-- 42_protocol_engine.md rule R139 (a), (b): every engine operation starts and ends with LE and DCLK low, strobes and pulses alternate,
and nothing falls inside a pulse, whatever the data. -/
def Obligations.EngineSequencesArePaced : Prop :=
  (∀ v : Word, paced false false (wrcfgEvents v) = true) ∧
  (∀ (m : List FbCell) (row : Nat), paced false false (drainEvents m row) = true) ∧
  paced false false glatchEvents = true ∧ paced false false pwmrstEvents = true

/-! ### The scheduler -/

/-- 43_row_scheduler.md rule R171: under its precondition, ROW_SET writes one row's switch and emits its event, also where the pin has
that level already, and nothing else changes. -/
def Obligations.RowSetWritesOneSwitch : Prop :=
  ∀ (s : State) (r : BitVec 8) (v : Bool), r.toNat < s.params.rowCount → s.le = false → s.dclk = false →
    ∃ t, exec (.rowSet r v) s = .next t ∧
    t = { s with rowEn := t.rowEn, trace := .row r.toNat v :: s.trace } ∧
    (s.rowEn.length = s.params.rowCount → t.rowOn r.toNat = v) ∧
    (∀ r', r' ≠ r.toNat → t.rowOn r' = s.rowOn r')

/-- 43_row_scheduler.md rule R170: TICK with TICK_EN = 1 completes; its 870 events in their order, the cursor advanced, the row before the
cursor off and the cursor's row on, and FB, DIRTY, TICK_EN and the rest untouched. With one row only, the row ends on. -/
def Obligations.TickRunsTheFourSteps : Prop :=
  ∀ s : State, s.tickEn = true → CursorOk s → s.rowEn.length = s.params.rowCount → ∃ t, exec .tick s = .next t ∧
    t = { s with cursor := (s.cursor + 1) % s.params.rowCount, dout := s.word s.cursor 15 0, dclk := false, le := false,
                 rowEn := t.rowEn, trace := t.trace, chips := t.chips } ∧
    t.pinTrace = s.pinTrace ++ tickEvents s.params s.fb s.cursor ∧
    (tickEvents s.params s.fb s.cursor).length = 870 ∧
    t.rowOn s.cursor = true ∧
    (prevRow s ≠ s.cursor → t.rowOn (prevRow s) = false) ∧
    (∀ r, r ≠ s.cursor → r ≠ prevRow s → t.rowOn r = s.rowOn r)

/-- 43_row_scheduler.md rule R175: a tick event while TICK_EN = 0 does nothing. -/
def Obligations.TickIgnoredBeforeInit : Prop :=
  ∀ s : State, s.tickEn = false → exec .tick s = .next s

/-- 43_row_scheduler.md rule R172 (derived there from rule R170): the k-th of a run of TICKs drains and then enables row
`(c0 + k − 1) mod ROW_COUNT` and leaves the cursor at `(c0 + k) mod ROW_COUNT`; ROW_COUNT of them drain every row once and bring the
cursor back; and no host operation but INIT, which sets it to 0, changes the cursor. -/
def Obligations.TicksCycleThroughTheRows : Prop :=
  (∀ (s : State) (k : Nat), s.tickEn = true → CursorOk s → ∃ t, ticks k s = .next t ∧
    t.cursor = (s.cursor + k) % s.params.rowCount ∧
    t.pinTrace = s.pinTrace ++
      (List.range k).flatMap fun n => tickEvents s.params s.fb ((s.cursor + n) % s.params.rowCount)) ∧
  (∀ s t : State, s.tickEn = true → CursorOk s → ticks s.params.rowCount s = .next t → t.cursor = s.cursor) ∧
  (∀ s : State, CursorOk s →
    ((List.range s.params.rowCount).map fun n => (s.cursor + n) % s.params.rowCount).Perm
      (List.range s.params.rowCount)) ∧
  (∀ (i : Instr) (s t : State), i ≠ .tick → i ≠ .init → exec i s = .next t → t.cursor = s.cursor) ∧
  (∀ s t : State, exec .init s = .next t → t.cursor = 0)

/-- 43_row_scheduler.md rule R174: no row is lit, or exactly the one before the cursor: at reset, and after every step from a state in
which it holds. -/
def Obligations.AtMostTheActiveRowIsLit : Prop :=
  (∀ (p : Params) (cfg : Channel → Word), LitRowOk (State.resetWith p cfg) ∧ CursorOk (State.resetWith p cfg)) ∧
  (∀ s t : State, LitRowOk s → CursorOk s → step s = .next t → LitRowOk t ∧ CursorOk t)

/-- 43_row_scheduler.md rule R176, 42_protocol_engine.md rule R155: after a TICK served in a state with no word latched and at most the
active row lit, the cursor's row is the only one lit and the receivers show that row's words. -/
def Obligations.TickShowsTheCursorsRow : Prop :=
  ∀ s : State, s.tickEn = true → CursorOk s → LitRowOk s → ChipsIdle s → ∃ t, exec .tick s = .next t ∧
    (∀ r, t.rowOn r = true ↔ r = s.cursor) ∧
    ∀ c, (t.chips.chip c).active = (List.range 16).map (fun g => drainedWord s s.cursor g c)

/-! ### The host's operations -/

/-- 44_color_api.md rules R180, R184: SET_COLOR of an LED there is completes, encodes the LED's slot, white where the override applies,
sets DIRTY, and leaves every other word and everything else as it was. -/
def Obligations.SetColorEncodesTheLed : Prop :=
  ∀ (s : State) (index : BitVec 12) (r g b : Level) (pos : LedPos), s.params.ledPos[index.toNat]? = some pos →
    ∃ t, exec (.setColor index r g b) s = .next t ∧ t = { s with fb := t.fb, dirty := true } ∧
      (∀ k < 16, t.word pos.row.toNat pos.col.toNat k =
        if s.params.indicatorIndex = some index.toNat ∧ s.indicator = true then
          planeWord (s.params.gammaAt 255) (s.params.gammaAt 255) (s.params.gammaAt 255) k
        else planeWord (s.params.gammaAt r) (s.params.gammaAt g) (s.params.gammaAt b) k) ∧
      (∀ a, ¬(wordAddr pos.row.toNat pos.col.toNat 0 ≤ a ∧ a < wordAddr pos.row.toNat pos.col.toNat 0 + 16) →
        fbRead t.fb a = fbRead s.fb a)

/-- 44_color_api.md rule R180: an index beyond LED_COUNT is silently ignored: nothing at all changes. -/
def Obligations.SetColorBeyondLedCountIgnored : Prop :=
  ∀ (s : State) (index : BitVec 12) (r g b : Level), s.params.ledCount ≤ index.toNat →
    exec (.setColor index r g b) s = .next s

/-- 44_color_api.md rules R181, R184: SET_COLOR_ALL completes, encodes every slot, white at the indicator's slot where the override
applies, sets DIRTY, and leaves everything else as it was. -/
def Obligations.SetColorAllEncodesEverySlot : Prop :=
  ∀ (s : State) (r g b : Level), ∃ t, exec (.setColorAll r g b) s = .next t ∧ t = { s with fb := t.fb, dirty := true } ∧
    (∀ row < s.params.rowCount, ∀ col < 16, ∀ k < 16,
      ((∃ i pos, s.params.indicatorIndex = some i ∧ s.params.ledPos[i]? = some pos ∧
          pos.row.toNat = row ∧ pos.col.toNat = col) ∧ s.indicator = true →
        t.word row col k =
          planeWord (s.params.gammaAt 255) (s.params.gammaAt 255) (s.params.gammaAt 255) k) ∧
      (¬((∃ i pos, s.params.indicatorIndex = some i ∧ s.params.ledPos[i]? = some pos ∧
          pos.row.toNat = row ∧ pos.col.toNat = col) ∧ s.indicator = true) →
        t.word row col k = planeWord (s.params.gammaAt r) (s.params.gammaAt g) (s.params.gammaAt b) k)) ∧
    (∀ a, s.params.rowCount * 256 ≤ a → fbRead t.fb a = fbRead s.fb a)

/-- 44_color_api.md rule R182, 30_encoding.md rule R93: SET_GAIN is the WRCFG of `CFG_DEFAULT` with the gain field replaced, bit by bit;
it completes and all three receivers end with that value. -/
def Obligations.SetGainSendsDefaultWithGain : Prop :=
  ∀ (s : State) (gain : BitVec 6), ∃ v : Word,
    (∀ n < 16, v.getLsbD n =
      if s.params.gainLsb.val ≤ n ∧ n < s.params.gainLsb.val + 6 then gain.getLsbD (n - s.params.gainLsb.val)
      else s.params.cfgDefault.getLsbD n) ∧
    exec (.setGain gain) s = exec (.wrcfg v) s ∧
    ∃ t, exec (.setGain gain) s = .next t ∧ t.pinTrace = s.pinTrace ++ wrcfgEvents v ∧
      t = { s with dout := t.dout, dclk := false, le := false, trace := t.trace, chips := t.chips } ∧
      ∀ c, (t.chips.chip c).cfg = v

/-- 44_color_api.md rule R183, 70_reset_and_hazards.md rule R260: INIT completes from every state: every row off with its event, the cursor
0, the default configuration in all three receivers, ticks enabled; the frame buffer, DIRTY and the rest as they were. -/
def Obligations.InitStartsTheScheduler : Prop :=
  ∀ s : State, ∃ t, exec .init s = .next t ∧
    t = { s with cursor := 0, tickEn := true, dout := t.dout, dclk := false, le := false, rowEn := t.rowEn,
                 trace := t.trace, chips := t.chips } ∧
    (∀ r < s.params.rowCount, t.rowOn r = false) ∧
    t.pinTrace = s.pinTrace ++ ((List.range s.params.rowCount).map fun r => PinEvent.row r false) ++
      wrcfgEvents s.params.cfgDefault ∧
    t.pinTrace.length = s.pinTrace.length + s.params.rowCount + 84 ∧
    ∀ c, (t.chips.chip c).cfg = s.params.cfgDefault

/-! ### Invariants -/

/-- 10_state.md rule R38 (I-a) to (I-d): every step keeps the invariant of reachable states. That a reset never leaves the receivers in
the middle of a frame is the model's choice (log entry 26). -/
def Obligations.StepKeepsTheInvariant : Prop := ∀ s t : State, Inv s → step s = .next t → Inv t

/-- 10_state.md rules R37, R38: the invariant holds right after reset, for every valid parameter set and every configuration the chips
power up with, and so for the machine's own. -/
def Obligations.ResetMeetsTheInvariant : Prop :=
  (∀ (p : Params) (cfg : Channel → Word), p.Valid → Inv (State.resetWith p cfg)) ∧ Inv State.reset

/-- 10_state.md rule R38 (I-e), 20_memory.md rule R62: under `mask_tick` every slot is always whole: zeros only or the encoding of one
colour, also between the steps of an interrupted SET_COLOR_ALL. -/
def Obligations.MaskTickKeepsSlotsWhole : Prop :=
  ∀ s t : State, Inv s → s.params.excl = .maskTick → AllSlotsWhole s → step s = .next t → AllSlotsWhole t

/-- 60_exceptions.md rules R201, R203, R211, R214: from a state that meets the invariant a step stops only as the spec says: a fault only
where a tick arrives during a TICK, a refusal only of a reserved opcode or of an ENCODE or DRAIN of a row there is not. -/
def Obligations.StepStopsOnlyWhereTheSpecSays : Prop :=
  ∀ s : State, Inv s →
    (∀ f, step s = .fault f → f = .overrun ∧ s.tickEn = true ∧ ∃ rest, s.stim = .tickInTick :: rest) ∧
    (∀ q, step s = .refused q → ∃ w rest, (s.stim = .cmd w :: rest ∨ ∃ k, s.stim = .cmdUntil w k :: rest) ∧
      ((q = .reservedOp ∧ decode w = .error (.reservedOp (opField w))) ∨
       (q = .outOfRange ∧ ∃ row, s.params.rowCount ≤ BitVec.toNat row ∧
         (decode w = .ok (.drain row) ∨ ∃ col r g b, decode w = .ok (.encode row col r g b)))))

/-! ### Rules over all operations -/

/-- 10_state.md rule R22: only ENCODE, and with it SET_COLOR and SET_COLOR_ALL, writes the frame buffer, and no operation breaks its
canonical form. -/
def Obligations.OnlyEncodersWriteTheFrameBuffer : Prop :=
  ∀ (i : Instr) (s t : State), exec i s = .next t →
    ((∀ row col r g b, i ≠ .encode row col r g b) → (∀ n r g b, i ≠ .setColor n r g b) →
      (∀ r g b, i ≠ .setColorAll r g b) → t.fb = s.fb) ∧
    (FbWf s.fb → FbWf t.fb)

/-- 10_state.md rules R23, R24, R25, R27, R28, R29, R30, R34, R36: who writes the cursor, DIRTY, TICK_EN, the pin registers DOUT, DCLK and
LE, the row switches, the receivers and the parameters. That `lookup`, the model's own field, is written by GLOOKUP alone is the
model's choice (log entry 5), and so is that a micro-operation performed by itself writes its pin at every level (log entry 12). -/
def Obligations.EveryRegisterHasItsWriters : Prop :=
  ∀ (i : Instr) (s t : State), exec i s = .next t →
    (t.cursor ≠ s.cursor → i = .tick ∨ i = .init) ∧
    (t.dirty ≠ s.dirty → t.dirty = true ∧ ((∃ n r g b, i = .setColor n r g b) ∨ ∃ r g b, i = .setColorAll r g b)) ∧
    (t.tickEn ≠ s.tickEn → t.tickEn = true ∧ i = .init) ∧
    (t.rowEn ≠ s.rowEn → i = .tick ∨ i = .init ∨ ∃ r v, i = .rowSet r v) ∧
    (t.dout ≠ s.dout → i = .tick ∨ i = .init ∨ (∃ g, i = .setGain g) ∨ (∃ v, i = .wrcfg v) ∨ (∃ r, i = .drain r) ∨
      ∃ w, i = .doutWr w) ∧
    (t.dclk ≠ s.dclk → i = .tick ∨ i = .init ∨ (∃ g, i = .setGain g) ∨ (∃ v, i = .wrcfg v) ∨ (∃ r, i = .drain r) ∨
      i = .glatch ∨ i = .pwmrst ∨ i = .pulse) ∧
    (t.le ≠ s.le → i = .tick ∨ i = .init ∨ (∃ g, i = .setGain g) ∨ (∃ v, i = .wrcfg v) ∨ (∃ r, i = .drain r) ∨
      i = .glatch ∨ i = .pwmrst ∨ i = .leHi ∨ i = .leLo) ∧
    (t.chips ≠ s.chips → i = .tick ∨ i = .init ∨ (∃ g, i = .setGain g) ∨ (∃ v, i = .wrcfg v) ∨ (∃ r, i = .drain r) ∨
      i = .glatch ∨ i = .pwmrst ∨ i = .pulse ∨ i = .leHi ∨ i = .leLo ∨ (∃ n, i = .dataLatch n) ∨
      (∃ n, i = .globalLatch n) ∨ (∃ n, i = .readCfg n) ∨ (∃ n, i = .writeCfg n) ∨ i = .pwmReset ∨
      ∃ n, i = .enWriteCfg n) ∧
    (t.lookup ≠ s.lookup → ∃ v, i = .glookup v) ∧
    t.params = s.params ∧ t.indicator = s.indicator ∧ t.stim = s.stim ∧ t.busy = s.busy

/-- 10_state.md rule R39: every operation only appends to the pin trace, and the encoding operations and GLOOKUP append nothing
and move no pin and no receiver (42_protocol_engine.md rule R148). -/
def Obligations.TheTraceOnlyGrows : Prop :=
  ∀ (i : Instr) (s t : State), exec i s = .next t →
    (∃ es, t.pinTrace = s.pinTrace ++ es) ∧
    (((∃ row col r g b, i = .encode row col r g b) ∨ (∃ n r g b, i = .setColor n r g b) ∨
      (∃ r g b, i = .setColorAll r g b) ∨ ∃ v, i = .glookup v) →
      t.trace = s.trace ∧ t.dout = s.dout ∧ t.dclk = s.dclk ∧ t.le = s.le ∧ t.rowEn = s.rowEn ∧ t.chips = s.chips)

/-- 10_state.md rule R24, 20_memory.md rule R66: DIRTY gates nothing: no operation's outcome depends on it, and but for DIRTY itself
nothing it leaves does. -/
def Obligations.NothingReadsDirty : Prop :=
  ∀ (i : Instr) (s : State) (d : Bool),
    andThen (exec i { s with dirty := d }) (fun t => .next { t with dirty := false }) =
      andThen (exec i s) (fun t => .next { t with dirty := false })

/-- 42_protocol_engine.md rule R136, 95_test_vectors.md V34: a drain reads its own row only: two frame buffers that agree on the row's
256 words give the same events. -/
def Obligations.DrainReadsItsOwnRowOnly : Prop :=
  ∀ (m m' : List FbCell) (row : Nat),
    (∀ a, row * 256 ≤ a → a < row * 256 + 256 → fbRead m a = fbRead m' a) → drainEvents m row = drainEvents m' row

/-! ### Rules of single operations, stated whole -/

/-- The model's choice, log entry 12: the levels of LE and DCLK are not checked: ROW_SET and DOUT_WR end in the same way and leave the
same state at every level, but for the levels themselves, which they leave as they are. -/
def Obligations.PinLevelsAreNotChecked : Prop :=
  ∀ (s : State) (r : BitVec 8) (v : Bool) (w : Word) (le dclk : Bool),
    exec (.rowSet r v) { s with le := le, dclk := dclk } =
      andThen (exec (.rowSet r v) s) (fun t => .next { t with le := le, dclk := dclk }) ∧
    exec (.doutWr w) { s with le := le, dclk := dclk } =
      andThen (exec (.doutWr w) s) (fun t => .next { t with le := le, dclk := dclk })

/-- 42_protocol_engine.md rules R143, R145: Read Configuration is counts 4 and 5, changes nothing but ARMED, which it clears, and
nothing in the block emits it; Enable Writing Configuration is counts 14 and 15, sets ARMED and changes nothing else, two in a
row leave it set, and the first frame of every WRCFG emits it with count 15. -/
def Obligations.ReadAndEnableWriteConfig : Prop :=
  (∀ n : Nat, (classify n = some .readCfg ↔ n = 4 ∨ n = 5) ∧ (classify n = some .enWriteCfg ↔ n = 14 ∨ n = 15)) ∧
  (∀ (s : State) (n : Nat), exec (.readCfg n) s = .next { s with chips := { s.chips with armed := false } }) ∧
  (∀ (v : Word) (m : List FbCell) (row : Nat),
    ∀ n ∈ strobeCounts none (wrcfgEvents v) ++ strobeCounts none (drainEvents m row) ++ strobeCounts none glatchEvents ++
      strobeCounts none pwmrstEvents, classify n ≠ some .readCfg) ∧
  (∀ (s : State) (n : Nat), exec (.enWriteCfg n) s = .next { s with chips := { s.chips with armed := true } }) ∧
  (∀ (s : State) (n k : Nat), ∃ t, andThen (exec (.enWriteCfg n) s) (exec (.enWriteCfg k)) = .next t ∧
    t.chips.armed = true) ∧
  strobeCounts none enableWriteEvents = [15] ∧ ∀ v : Word, wrcfgEvents v = enableWriteEvents ++ configEvents v

/-- 44_color_api.md rules R182, R183, 10_state.md rule R31: with valid parameters INIT leaves every receiver's configuration with the
enable bit set and the default gain, SET_GAIN leaves it with the enable bit set and the gain asked for, and SET_GAIN of the default
gain is the WRCFG of `CFG_DEFAULT`. That the enable bit is no bit of the gain field is the model's inference (log entry 15). -/
def Obligations.ConfigurationKeepsTheEnableBit : Prop :=
  ∀ s : State, s.params.Valid →
    (∃ t, exec .init s = .next t ∧ ∀ c, (t.chips.chip c).cfg.getLsbD s.params.enableBit.val = true ∧
      s.params.gainField (t.chips.chip c).cfg = s.params.defaultGain) ∧
    (∀ gain, ∃ t, exec (.setGain gain) s = .next t ∧
      ∀ c, (t.chips.chip c).cfg.getLsbD s.params.enableBit.val = true ∧
        s.params.gainField (t.chips.chip c).cfg = gain) ∧
    exec (.setGain s.params.defaultGain) s = exec (.wrcfg s.params.cfgDefault) s
end

