-- ==== Sys2Proof/Laws/State.lean ====
section
/-! SUPPORT. What each update of the state does to each field, and the laws of `andThen`: the simp set by which no later proof
unfolds a record update. -/

namespace Sys2Proof.Machine

@[simp] theorem andThen_next (s : State) (f : State → Result) : andThen (.next s) f = f s := rfl

@[simp] theorem andThen_fault (r : Fault) (f : State → Result) : andThen (.fault r) f = .fault r := rfl

@[simp] theorem andThen_refused (r : Refusal) (f : State → Result) : andThen (.refused r) f = .refused r := rfl

theorem andThen_assoc (o : Result) (f g : State → Result) :
    andThen (andThen o f) g = andThen o fun s => andThen (f s) g := by
  cases o <;> rfl

/-- A sequence that completes has completed its first part, and then its second from there. -/
theorem andThen_eq_next {o : Result} {f : State → Result} {t : State} :
    andThen o f = .next t ↔ ∃ u, o = .next u ∧ f u = .next t := by
  cases o <;> simp

theorem pinTrace_record (e : PinEvent) (s : State) : (record e s).pinTrace = s.pinTrace ++ [e] := by
  simp [State.pinTrace, record]

/-! ### `record` -/

@[simp] theorem record_params (e : PinEvent) (s : State) : (record e s).params = s.params := rfl

@[simp] theorem record_fb (e : PinEvent) (s : State) : (record e s).fb = s.fb := rfl

@[simp] theorem record_cursor (e : PinEvent) (s : State) : (record e s).cursor = s.cursor := rfl

@[simp] theorem record_dirty (e : PinEvent) (s : State) : (record e s).dirty = s.dirty := rfl

@[simp] theorem record_tickEn (e : PinEvent) (s : State) : (record e s).tickEn = s.tickEn := rfl

@[simp] theorem record_dout (e : PinEvent) (s : State) : (record e s).dout = s.dout := rfl

@[simp] theorem record_dclk (e : PinEvent) (s : State) : (record e s).dclk = s.dclk := rfl

@[simp] theorem record_le (e : PinEvent) (s : State) : (record e s).le = s.le := rfl

@[simp] theorem record_rowEn (e : PinEvent) (s : State) : (record e s).rowEn = s.rowEn := rfl

@[simp] theorem record_trace (e : PinEvent) (s : State) : (record e s).trace = e :: s.trace := rfl

@[simp] theorem record_chips (e : PinEvent) (s : State) : (record e s).chips = s.chips := rfl

@[simp] theorem record_busy (e : PinEvent) (s : State) : (record e s).busy = s.busy := rfl

@[simp] theorem record_lookup (e : PinEvent) (s : State) : (record e s).lookup = s.lookup := rfl

@[simp] theorem record_indicator (e : PinEvent) (s : State) : (record e s).indicator = s.indicator := rfl

@[simp] theorem record_stim (e : PinEvent) (s : State) : (record e s).stim = s.stim := rfl

/-! ### `setRow` -/

@[simp] theorem setRow_params (r : Nat) (v : Bool) (s : State) : (setRow r v s).params = s.params := rfl

@[simp] theorem setRow_fb (r : Nat) (v : Bool) (s : State) : (setRow r v s).fb = s.fb := rfl

@[simp] theorem setRow_cursor (r : Nat) (v : Bool) (s : State) : (setRow r v s).cursor = s.cursor := rfl

@[simp] theorem setRow_dirty (r : Nat) (v : Bool) (s : State) : (setRow r v s).dirty = s.dirty := rfl

@[simp] theorem setRow_tickEn (r : Nat) (v : Bool) (s : State) : (setRow r v s).tickEn = s.tickEn := rfl

@[simp] theorem setRow_dout (r : Nat) (v : Bool) (s : State) : (setRow r v s).dout = s.dout := rfl

@[simp] theorem setRow_dclk (r : Nat) (v : Bool) (s : State) : (setRow r v s).dclk = s.dclk := rfl

@[simp] theorem setRow_le (r : Nat) (v : Bool) (s : State) : (setRow r v s).le = s.le := rfl

@[simp] theorem setRow_rowEn (r : Nat) (v : Bool) (s : State) : (setRow r v s).rowEn = s.rowEn.set r v := rfl

@[simp] theorem setRow_trace (r : Nat) (v : Bool) (s : State) : (setRow r v s).trace = .row r v :: s.trace := rfl

@[simp] theorem setRow_chips (r : Nat) (v : Bool) (s : State) : (setRow r v s).chips = s.chips := rfl

@[simp] theorem setRow_busy (r : Nat) (v : Bool) (s : State) : (setRow r v s).busy = s.busy := rfl

@[simp] theorem setRow_lookup (r : Nat) (v : Bool) (s : State) : (setRow r v s).lookup = s.lookup := rfl

@[simp] theorem setRow_indicator (r : Nat) (v : Bool) (s : State) : (setRow r v s).indicator = s.indicator := rfl

@[simp] theorem setRow_stim (r : Nat) (v : Bool) (s : State) : (setRow r v s).stim = s.stim := rfl

/-! ### `setDirty` -/

@[simp] theorem setDirty_params (s : State) : (setDirty s).params = s.params := rfl

@[simp] theorem setDirty_fb (s : State) : (setDirty s).fb = s.fb := rfl

@[simp] theorem setDirty_cursor (s : State) : (setDirty s).cursor = s.cursor := rfl

@[simp] theorem setDirty_dirty (s : State) : (setDirty s).dirty = true := rfl

@[simp] theorem setDirty_tickEn (s : State) : (setDirty s).tickEn = s.tickEn := rfl

@[simp] theorem setDirty_dout (s : State) : (setDirty s).dout = s.dout := rfl

@[simp] theorem setDirty_dclk (s : State) : (setDirty s).dclk = s.dclk := rfl

@[simp] theorem setDirty_le (s : State) : (setDirty s).le = s.le := rfl

@[simp] theorem setDirty_rowEn (s : State) : (setDirty s).rowEn = s.rowEn := rfl

@[simp] theorem setDirty_trace (s : State) : (setDirty s).trace = s.trace := rfl

@[simp] theorem setDirty_chips (s : State) : (setDirty s).chips = s.chips := rfl

@[simp] theorem setDirty_busy (s : State) : (setDirty s).busy = s.busy := rfl

@[simp] theorem setDirty_lookup (s : State) : (setDirty s).lookup = s.lookup := rfl

@[simp] theorem setDirty_indicator (s : State) : (setDirty s).indicator = s.indicator := rfl

@[simp] theorem setDirty_stim (s : State) : (setDirty s).stim = s.stim := rfl

/-! ### `clearDirtyFlag` -/

@[simp] theorem clearDirtyFlag_params (s : State) : (clearDirtyFlag s).params = s.params := rfl

@[simp] theorem clearDirtyFlag_fb (s : State) : (clearDirtyFlag s).fb = s.fb := rfl

@[simp] theorem clearDirtyFlag_cursor (s : State) : (clearDirtyFlag s).cursor = s.cursor := rfl

@[simp] theorem clearDirtyFlag_dirty (s : State) : (clearDirtyFlag s).dirty = false := rfl

@[simp] theorem clearDirtyFlag_tickEn (s : State) : (clearDirtyFlag s).tickEn = s.tickEn := rfl

@[simp] theorem clearDirtyFlag_dout (s : State) : (clearDirtyFlag s).dout = s.dout := rfl

@[simp] theorem clearDirtyFlag_dclk (s : State) : (clearDirtyFlag s).dclk = s.dclk := rfl

@[simp] theorem clearDirtyFlag_le (s : State) : (clearDirtyFlag s).le = s.le := rfl

@[simp] theorem clearDirtyFlag_rowEn (s : State) : (clearDirtyFlag s).rowEn = s.rowEn := rfl

@[simp] theorem clearDirtyFlag_trace (s : State) : (clearDirtyFlag s).trace = s.trace := rfl

@[simp] theorem clearDirtyFlag_chips (s : State) : (clearDirtyFlag s).chips = s.chips := rfl

@[simp] theorem clearDirtyFlag_busy (s : State) : (clearDirtyFlag s).busy = s.busy := rfl

@[simp] theorem clearDirtyFlag_lookup (s : State) : (clearDirtyFlag s).lookup = s.lookup := rfl

@[simp] theorem clearDirtyFlag_indicator (s : State) : (clearDirtyFlag s).indicator = s.indicator := rfl

@[simp] theorem clearDirtyFlag_stim (s : State) : (clearDirtyFlag s).stim = s.stim := rfl

/-! ### `setTickEn` -/

@[simp] theorem setTickEn_params (s : State) : (setTickEn s).params = s.params := rfl

@[simp] theorem setTickEn_fb (s : State) : (setTickEn s).fb = s.fb := rfl

@[simp] theorem setTickEn_cursor (s : State) : (setTickEn s).cursor = s.cursor := rfl

@[simp] theorem setTickEn_dirty (s : State) : (setTickEn s).dirty = s.dirty := rfl

@[simp] theorem setTickEn_tickEn (s : State) : (setTickEn s).tickEn = true := rfl

@[simp] theorem setTickEn_dout (s : State) : (setTickEn s).dout = s.dout := rfl

@[simp] theorem setTickEn_dclk (s : State) : (setTickEn s).dclk = s.dclk := rfl

@[simp] theorem setTickEn_le (s : State) : (setTickEn s).le = s.le := rfl

@[simp] theorem setTickEn_rowEn (s : State) : (setTickEn s).rowEn = s.rowEn := rfl

@[simp] theorem setTickEn_trace (s : State) : (setTickEn s).trace = s.trace := rfl

@[simp] theorem setTickEn_chips (s : State) : (setTickEn s).chips = s.chips := rfl

@[simp] theorem setTickEn_busy (s : State) : (setTickEn s).busy = s.busy := rfl

@[simp] theorem setTickEn_lookup (s : State) : (setTickEn s).lookup = s.lookup := rfl

@[simp] theorem setTickEn_indicator (s : State) : (setTickEn s).indicator = s.indicator := rfl

@[simp] theorem setTickEn_stim (s : State) : (setTickEn s).stim = s.stim := rfl

/-! ### `advanceCursor` -/

@[simp] theorem advanceCursor_params (s : State) : (advanceCursor s).params = s.params := rfl

@[simp] theorem advanceCursor_fb (s : State) : (advanceCursor s).fb = s.fb := rfl

@[simp] theorem advanceCursor_cursor (s : State) : (advanceCursor s).cursor = nextRow s := rfl

@[simp] theorem advanceCursor_dirty (s : State) : (advanceCursor s).dirty = s.dirty := rfl

@[simp] theorem advanceCursor_tickEn (s : State) : (advanceCursor s).tickEn = s.tickEn := rfl

@[simp] theorem advanceCursor_dout (s : State) : (advanceCursor s).dout = s.dout := rfl

@[simp] theorem advanceCursor_dclk (s : State) : (advanceCursor s).dclk = s.dclk := rfl

@[simp] theorem advanceCursor_le (s : State) : (advanceCursor s).le = s.le := rfl

@[simp] theorem advanceCursor_rowEn (s : State) : (advanceCursor s).rowEn = s.rowEn := rfl

@[simp] theorem advanceCursor_trace (s : State) : (advanceCursor s).trace = s.trace := rfl

@[simp] theorem advanceCursor_chips (s : State) : (advanceCursor s).chips = s.chips := rfl

@[simp] theorem advanceCursor_busy (s : State) : (advanceCursor s).busy = s.busy := rfl

@[simp] theorem advanceCursor_lookup (s : State) : (advanceCursor s).lookup = s.lookup := rfl

@[simp] theorem advanceCursor_indicator (s : State) : (advanceCursor s).indicator = s.indicator := rfl

@[simp] theorem advanceCursor_stim (s : State) : (advanceCursor s).stim = s.stim := rfl

/-! ### `writePlane` -/

@[simp] theorem writePlane_params (e : Encoder) (s : State) : (writePlane e s).params = s.params := rfl

@[simp] theorem writePlane_fb (e : Encoder) (s : State) : (writePlane e s).fb = fbWrite s.fb (wordAddr e.row e.col e.p) (planeWord e.gr e.gg e.gb e.p) := rfl

@[simp] theorem writePlane_cursor (e : Encoder) (s : State) : (writePlane e s).cursor = s.cursor := rfl

@[simp] theorem writePlane_dirty (e : Encoder) (s : State) : (writePlane e s).dirty = s.dirty := rfl

@[simp] theorem writePlane_tickEn (e : Encoder) (s : State) : (writePlane e s).tickEn = s.tickEn := rfl

@[simp] theorem writePlane_dout (e : Encoder) (s : State) : (writePlane e s).dout = s.dout := rfl

@[simp] theorem writePlane_dclk (e : Encoder) (s : State) : (writePlane e s).dclk = s.dclk := rfl

@[simp] theorem writePlane_le (e : Encoder) (s : State) : (writePlane e s).le = s.le := rfl

@[simp] theorem writePlane_rowEn (e : Encoder) (s : State) : (writePlane e s).rowEn = s.rowEn := rfl

@[simp] theorem writePlane_trace (e : Encoder) (s : State) : (writePlane e s).trace = s.trace := rfl

@[simp] theorem writePlane_chips (e : Encoder) (s : State) : (writePlane e s).chips = s.chips := rfl

@[simp] theorem writePlane_busy (e : Encoder) (s : State) : (writePlane e s).busy = s.busy := rfl

@[simp] theorem writePlane_lookup (e : Encoder) (s : State) : (writePlane e s).lookup = s.lookup := rfl

@[simp] theorem writePlane_indicator (e : Encoder) (s : State) : (writePlane e s).indicator = s.indicator := rfl

@[simp] theorem writePlane_stim (e : Encoder) (s : State) : (writePlane e s).stim = s.stim := rfl

end Sys2Proof.Machine
end

