-- ==== Sys2Proof/Laws/Memory.lean ====
section
/-! SUPPORT. The laws of the frame buffer: a read after a write, and that every operation keeps the canonical form. -/

namespace Sys2Proof.Machine

@[simp] theorem fbRead_nil (a : Nat) : fbRead [] a = 0 := rfl

theorem fbRead_erase (m : List FbCell) (a x : Nat) :
    fbRead (fbErase m a) x = if x = a then 0 else fbRead m x := by
  induction m with
  | nil => simp [fbErase]
  | cons c m ih =>
    obtain ⟨b, w⟩ := c
    simp only [fbErase, List.filter_cons] at ih ⊢
    by_cases hb : b = a
    · subst hb
      simp only [bne_self_eq_false, Bool.false_eq_true, if_false, ih, fbRead]
      split <;> simp_all [eq_comm]
    · simp only [bne_iff_ne, ne_eq, hb, not_false_eq_true, if_true, fbRead, ih]
      by_cases hx : b = x <;> simp_all

theorem fbRead_insert (m : List FbCell) (a x : Nat) (v : Word) (h : ∀ c ∈ m, c.1 ≠ a) :
    fbRead (fbInsert m a v) x = if x = a then v else fbRead m x := by
  induction m with
  | nil => simp [fbInsert, fbRead, fbUnlisted, eq_comm]
  | cons c m ih =>
    obtain ⟨b, w⟩ := c
    have hb : b ≠ a := h (b, w) (by simp)
    have ih := ih fun c hc => h c (by simp [hc])
    simp only [fbInsert]
    split
    · simp only [fbRead, eq_comm]
    · simp only [fbRead, ih]
      by_cases hx : b = x <;> simp_all

theorem fbErase_ne (m : List FbCell) (a : Nat) : ∀ c ∈ fbErase m a, c.1 ≠ a := by
  intro c hc
  simpa using (List.mem_filter.mp hc).2

/-- A read after a write: the word written at its address, every other word as before, whatever the list. -/
@[simp] theorem fbRead_write (m : List FbCell) (a x : Nat) (v : Word) :
    fbRead (fbWrite m a v) x = if x = a then v else fbRead m x := by
  unfold fbWrite
  split
  · next h => rw [fbRead_erase, h, fbUnlisted]
  · rw [fbRead_insert _ _ _ _ (fbErase_ne m a), fbRead_erase]
    by_cases hx : x = a <;> simp [hx]

theorem mem_fbInsert {m : List FbCell} {a : Nat} {v : Word} {c : FbCell} :
    c ∈ fbInsert m a v ↔ c = (a, v) ∨ c ∈ m := by
  induction m with
  | nil => simp [fbInsert]
  | cons d m ih =>
    simp only [fbInsert]
    split
    · simp
    · simp only [List.mem_cons, ih]
      tauto

/-- What a write lists: the word written, and words listed before. -/
theorem mem_fbWrite {m : List FbCell} {a : Nat} {v : Word} {c : FbCell} (h : c ∈ fbWrite m a v) :
    c = (a, v) ∨ c ∈ m := by
  unfold fbWrite fbErase at h
  split at h
  · exact .inr (List.mem_filter.mp h).1
  · exact (mem_fbInsert.mp h).imp_right fun h => (List.mem_filter.mp h).1

theorem fbInsert_sorted {m : List FbCell} {a : Nat} {v : Word}
    (hs : m.Pairwise fun c d => c.1 < d.1) (hne : ∀ c ∈ m, c.1 ≠ a) :
    (fbInsert m a v).Pairwise fun c d => c.1 < d.1 := by
  induction m with
  | nil => simp [fbInsert]
  | cons d m ih =>
    obtain ⟨b, w⟩ := d
    obtain ⟨hb, hs⟩ := List.pairwise_cons.mp hs
    have hba : b ≠ a := hne (b, w) (by simp)
    simp only [fbInsert]
    split
    · next hab =>
      refine List.pairwise_cons.mpr ⟨?_, List.pairwise_cons.mpr ⟨hb, hs⟩⟩
      intro c hc
      rcases List.mem_cons.mp hc with rfl | hc
      · exact hab
      · exact lt_trans hab (hb c hc)
    · next hab =>
      refine List.pairwise_cons.mpr ⟨?_, ih hs fun c hc => hne c (by simp [hc])⟩
      intro c hc
      rcases mem_fbInsert.mp hc with rfl | hc
      · change b < a
        omega
      · exact hb c hc

/-- A write keeps the canonical form. -/
theorem fbWrite_wf {m : List FbCell} (h : FbWf m) (a : Nat) (v : Word) : FbWf (fbWrite m a v) := by
  have he : (fbErase m a).Pairwise fun c d => c.1 < d.1 := h.1.filter _
  refine ⟨?_, ?_⟩
  · unfold fbWrite
    split
    · exact he
    · exact fbInsert_sorted he (fbErase_ne m a)
  · intro c hc
    unfold fbWrite at hc
    split at hc
    · exact h.2 c (List.mem_filter.mp hc).1
    · next hv =>
      rcases mem_fbInsert.mp hc with rfl | hc
      · exact hv
      · exact h.2 c (List.mem_filter.mp hc).1

/-- The reset memory has the canonical form. -/
theorem fbWf_nil : FbWf [] := ⟨List.Pairwise.nil, by simp⟩

theorem fbWf_reset : FbWf State.reset.fb := fbWf_nil

end Sys2Proof.Machine
end

