-- ==== Sys2Proof/Laws/Encoder.lean ====
section
/-! SUPPORT. What ENCODE's word writes can do: only the frame buffer changes, and there exactly the planes written. -/

namespace Sys2Proof.Machine

theorem wordAddr_inj_plane {row col p q : Nat} : wordAddr row col p = wordAddr row col q ↔ p = q := by
  simp [wordAddr]

/-- The planes of a slot follow one another (20_memory.md rule R51). -/
theorem wordAddr_eq (row col p : Nat) : wordAddr row col p = wordAddr row col 0 + p := by
  simp [wordAddr]

@[simp] theorem startEncoder_row (p : Params) (row col : Nat) (c : Color) : (startEncoder p row col c).row = row := rfl

@[simp] theorem startEncoder_col (p : Params) (row col : Nat) (c : Color) : (startEncoder p row col c).col = col := rfl

@[simp] theorem startEncoder_p (p : Params) (row col : Nat) (c : Color) : (startEncoder p row col c).p = 0 := rfl

/-- Word writes change nothing but the frame buffer. -/
theorem writePlanes_eq (e : Encoder) (n : Nat) (s : State) :
    writePlanes e n s = { s with fb := (writePlanes e n s).fb } := by
  induction n generalizing e s with
  | zero => rfl
  | succ n ih =>
    rw [writePlanes, ih]
    rfl

@[simp] theorem writePlanes_params (e : Encoder) (n : Nat) (s : State) : (writePlanes e n s).params = s.params := by
  rw [writePlanes_eq]

/-- A word of the frame buffer after `n` word writes: the new word of its plane, or what it was. -/
theorem writePlanes_read (e : Encoder) (n : Nat) (s : State) (a : Nat) :
    fbRead (writePlanes e n s).fb a =
      if wordAddr e.row e.col e.p ≤ a ∧ a < wordAddr e.row e.col e.p + n then
        planeWord e.gr e.gg e.gb (a - wordAddr e.row e.col 0)
      else fbRead s.fb a := by
  induction n generalizing e s with
  | zero =>
    have h : ¬(wordAddr e.row e.col e.p ≤ a ∧ a < wordAddr e.row e.col e.p + 0) := by omega
    rw [if_neg h]
    rfl
  | succ n ih =>
    rw [writePlanes, ih]
    simp only [writePlane_fb, fbRead_write, wordAddr_eq e.row e.col e.p, wordAddr_eq e.row e.col (e.p + 1)]
    generalize wordAddr e.row e.col 0 = base
    by_cases h : a = base + e.p
    · have hp : a - base = e.p := by omega
      rw [if_neg (by omega), if_pos h, if_pos (by omega), hp]
    · by_cases h2 : base + (e.p + 1) ≤ a ∧ a < base + (e.p + 1) + n
      · rw [if_pos h2, if_pos (by omega)]
      · rw [if_neg h2, if_neg h, if_neg (by omega)]

/-- Word writes keep the canonical form of the frame buffer. -/
theorem writePlanes_wf (e : Encoder) (n : Nat) (s : State) (h : FbWf s.fb) : FbWf (writePlanes e n s).fb := by
  induction n generalizing e s with
  | zero => exact h
  | succ n ih => exact ih _ _ (fbWrite_wf h _ _)

/-- Word writes made in two parts. -/
theorem writePlanes_add (e : Encoder) (m n : Nat) (s : State) :
    writePlanes e (m + n) s = writePlanes { e with p := e.p + m } n (writePlanes e m s) := by
  induction m generalizing e s with
  | zero => simp [writePlanes]
  | succ m ih =>
    rw [Nat.succ_add, writePlanes, ih, writePlanes]
    simp [Nat.add_assoc, Nat.add_comm 1 m]

end Sys2Proof.Machine
end

