-- ==== Sys2Proof/Laws/Pins.lean ====
section
/-! SUPPORT. What emitting pin events can do: the pins, the trace and the receivers change, everything else stays; a list of
events never ends in a refusal; what a run of pulses does. -/

namespace Sys2Proof.Machine

/-- What no pin event changes, and what the trace becomes, when `es` are emitted. -/
structure EmitFrame (es : List PinEvent) (s t : State) : Prop where
  params : t.params = s.params
  fb : t.fb = s.fb
  cursor : t.cursor = s.cursor
  dirty : t.dirty = s.dirty
  tickEn : t.tickEn = s.tickEn
  busy : t.busy = s.busy
  lookup : t.lookup = s.lookup
  indicator : t.indicator = s.indicator
  stim : t.stim = s.stim
  trace : t.trace = es.reverse ++ s.trace
  rowEn_length : t.rowEn.length = s.rowEn.length

theorem EmitFrame.pinTrace {es : List PinEvent} {s t : State} (h : EmitFrame es s t) :
    t.pinTrace = s.pinTrace ++ es := by
  simp [State.pinTrace, h.trace]

/-- Everything one event can do: a fault at an `L-` with no command, or a next state within the frame. -/
theorem emit_next {e : PinEvent} {s t : State} (h : emit e s = .next t) : EmitFrame [e] s t := by
  cases e with
  | leLo =>
    simp only [emit] at h
    split at h
    · cases h
      constructor <;> rfl
    · cases h
  | data w => cases h; constructor <;> rfl
  | clkHi => cases h; constructor <;> rfl
  | clkLo => cases h; constructor <;> rfl
  | leHi => cases h; constructor <;> rfl
  | row r v =>
    cases h
    constructor
    case rowEn_length => simp
    all_goals rfl

/-- An event faults exactly where it is an `L-` whose pulse count selects no command. -/
theorem emit_fault_iff {e : PinEvent} {s : State} {f : Fault} :
    emit e s = .fault f ↔ e = .leLo ∧ classify s.chips.nle = none ∧ f = .unspecStrobe := by
  cases e with
  | leLo =>
    simp only [emit]
    split
    · next h => simp [h]
    · next h => simp [h, eq_comm]
  | data w => simp [emit]
  | clkHi => simp [emit]
  | clkLo => simp [emit]
  | leHi => simp [emit]
  | row r v => simp [emit]

theorem emit_not_refused (e : PinEvent) (s : State) (r : Refusal) : emit e s ≠ .refused r := by
  cases e with
  | leLo => simp only [emit]; split <;> simp
  | data w => simp [emit]
  | clkHi => simp [emit]
  | clkLo => simp [emit]
  | leHi => simp [emit]
  | row r v => simp [emit]

@[simp] theorem emitAll_nil (s : State) : emitAll [] s = .next s := rfl

theorem emitAll_cons (e : PinEvent) (es : List PinEvent) (s : State) :
    emitAll (e :: es) s = andThen (emit e s) (emitAll es) := rfl

theorem emitAll_append (xs ys : List PinEvent) (s : State) :
    emitAll (xs ++ ys) s = andThen (emitAll xs s) (emitAll ys) := by
  induction xs generalizing s with
  | nil => rfl
  | cons x xs ih =>
    simp only [List.cons_append, emitAll_cons]
    cases emit x s with
    | next t => exact ih t
    | fault r => rfl
    | refused r => rfl

/-- Everything a list of events can do when it completes. -/
theorem emitAll_next {es : List PinEvent} {s t : State} (h : emitAll es s = .next t) : EmitFrame es s t := by
  induction es generalizing s with
  | nil => cases h; constructor <;> rfl
  | cons e es ih =>
    obtain ⟨u, hu, ht⟩ := andThen_eq_next.mp h
    have a := emit_next hu
    have b := ih ht
    constructor
    case trace => simp [b.trace, a.trace]
    case params => exact b.params.trans a.params
    case fb => exact b.fb.trans a.fb
    case cursor => exact b.cursor.trans a.cursor
    case dirty => exact b.dirty.trans a.dirty
    case tickEn => exact b.tickEn.trans a.tickEn
    case busy => exact b.busy.trans a.busy
    case lookup => exact b.lookup.trans a.lookup
    case indicator => exact b.indicator.trans a.indicator
    case stim => exact b.stim.trans a.stim
    case rowEn_length => exact b.rowEn_length.trans a.rowEn_length

theorem emitAll_not_refused (es : List PinEvent) (s : State) (r : Refusal) : emitAll es s ≠ .refused r := by
  induction es generalizing s with
  | nil => simp
  | cons e es ih =>
    rw [emitAll_cons]
    cases h : emit e s with
    | next t => exact ih t
    | fault f => simp
    | refused q => exact absurd h (emit_not_refused e s q)

/-! ### Pulses -/

theorem pulses_succ (n : Nat) : pulses (n + 1) = pulseEvents ++ pulses n := by
  simp [pulses, List.replicate_succ]

/-- One pulse: DCLK ends low, the receivers have shifted once. -/
theorem emitAll_pulse (s : State) :
    emitAll pulseEvents s =
      .next { s with dclk := false, trace := .clkLo :: .clkHi :: s.trace, chips := s.chips.clockIn s.dout s.le } := rfl

/-- `n` pulses clock the receivers `n` times with DOUT and LE as they are. -/
theorem emitAll_pulses_succ (n : Nat) (s : State) :
    emitAll (pulses (n + 1)) s =
      .next { s with
        dclk := false
        trace := (pulses (n + 1)).reverse ++ s.trace
        chips := (fun cs => cs.clockIn s.dout s.le)^[n + 1] s.chips } := by
  induction n generalizing s with
  | zero => rfl
  | succ n ih =>
    rw [pulses_succ, emitAll_append, emitAll_pulse, andThen_next, ih]
    simp [pulseEvents, Function.iterate_succ]

@[simp] theorem clockIn_nle (cs : Chips) (d : Word) (le : Bool) :
    (cs.clockIn d le).nle = if le then cs.nle + 1 else cs.nle := rfl

@[simp] theorem clockIn_armed (cs : Chips) (d : Word) (le : Bool) : (cs.clockIn d le).armed = cs.armed := rfl

@[simp] theorem clockIn_pwmResets (cs : Chips) (d : Word) (le : Bool) :
    (cs.clockIn d le).pwmResets = cs.pwmResets := rfl

/-- What one pulse does to one receiver: it shifts its data line in, and that is all. -/
@[simp] theorem clockIn_chip (cs : Chips) (d : Word) (le : Bool) (c : Channel) :
    (cs.clockIn d le).chip c =
      { cs.chip c with sr := (cs.chip c).sr.shiftConcat (dataLine d c) } := by
  cases c <;> rfl

/-- While LE is high every pulse counts. -/
theorem clockIn_iterate_nle (n : Nat) (cs : Chips) (d : Word) :
    ((fun cs => Chips.clockIn cs d true)^[n] cs).nle = cs.nle + n := by
  induction n generalizing cs with
  | zero => rfl
  | succ n ih => simp [Function.iterate_succ, ih]; omega

/-! ### The receivers: what each reaction does to each field -/

@[simp] theorem mapChip_chip (cs : Chips) (f : Channel → Chip → Chip) (c : Channel) :
    (cs.mapChip f).chip c = f c (cs.chip c) := by
  cases c <;> rfl

@[simp] theorem leRise_chip (cs : Chips) (c : Channel) : cs.leRise.chip c = cs.chip c := by cases c <;> rfl

@[simp] theorem leRise_nle (cs : Chips) : cs.leRise.nle = 0 := rfl

@[simp] theorem leRise_armed (cs : Chips) : cs.leRise.armed = cs.armed := rfl

@[simp] theorem leRise_pwmResets (cs : Chips) : cs.leRise.pwmResets = cs.pwmResets := rfl

@[simp] theorem execute_nle (cs : Chips) (k : Strobe) : (cs.execute k).nle = cs.nle := by cases k <;> rfl

/-- Only Enable Writing Configuration leaves the receivers armed. -/
@[simp] theorem execute_armed (cs : Chips) (k : Strobe) : (cs.execute k).armed = decide (k = .enWriteCfg) := by
  cases k <;> rfl

@[simp] theorem execute_pwmResets (cs : Chips) (k : Strobe) :
    (cs.execute k).pwmResets = if k = .pwmReset then cs.pwmResets + 1 else cs.pwmResets := by
  cases k <;> rfl

@[simp] theorem dataLatch_chip (cs : Chips) (c : Channel) : (cs.execute .dataLatch).chip c =
    { cs.chip c with latched := (cs.chip c).latched ++ [(cs.chip c).sr] } := by
  cases c <;> rfl

@[simp] theorem globalLatch_chip (cs : Chips) (c : Channel) : (cs.execute .globalLatch).chip c =
    { cs.chip c with active := (cs.chip c).latched, latched := [] } := by
  cases c <;> rfl

@[simp] theorem readCfg_chip (cs : Chips) (c : Channel) : (cs.execute .readCfg).chip c = cs.chip c := by
  cases c <;> rfl

@[simp] theorem writeCfg_chip (cs : Chips) (c : Channel) : (cs.execute .writeCfg).chip c =
    if cs.armed then { cs.chip c with cfg := (cs.chip c).sr } else cs.chip c := by
  cases c <;> rfl

@[simp] theorem pwmReset_chip (cs : Chips) (c : Channel) : (cs.execute .pwmReset).chip c = cs.chip c := by
  cases c <;> rfl

@[simp] theorem enWriteCfg_chip (cs : Chips) (c : Channel) : (cs.execute .enWriteCfg).chip c = cs.chip c := by
  cases c <;> rfl

end Sys2Proof.Machine
end

