-- ==== Sys2Proof/Laws/Engine.lean ====
section
/-! SUPPORT. What the engine's frames do: a run of pulses and a run of written words clock the receivers, a strobe ends in the
command its count selects, and every frame is made of these. -/

namespace Sys2Proof.Machine

/-! ### The shift register -/

/-- The shift register after the bits `bs` have been shifted in, first bit first. -/
def shiftAll (sr : Word) (bs : List Bool) : Word := bs.foldl (fun a b => a.shiftConcat b) sr

@[simp] theorem shiftAll_nil (sr : Word) : shiftAll sr [] = sr := rfl

theorem shiftAll_append (sr : Word) (bs cs : List Bool) : shiftAll sr (bs ++ cs) = shiftAll (shiftAll sr bs) cs := by
  simp [shiftAll]

/-- The last bit shifted in is bit 0, and the register's own bits move up. -/
theorem shiftAll_bit (sr : Word) (bs : List Bool) (n : Nat) (hn : n < 16) :
    (shiftAll sr bs).getLsbD n =
      if n < bs.length then bs.getD (bs.length - 1 - n) false else sr.getLsbD (n - bs.length) := by
  induction bs using List.reverseRecOn generalizing n with
  | nil => simp
  | append_singleton bs b ih =>
    rw [shiftAll_append]
    simp only [shiftAll, List.foldl_cons, List.foldl_nil, BitVec.getLsbD_shiftConcat, List.length_append,
      List.length_singleton]
    cases n with
    | zero => simp
    | succ n =>
      have ih := ih n (by omega)
      simp only [shiftAll] at ih
      simp only [hn, decide_true, Nat.succ_ne_zero, if_false, Nat.add_sub_cancel, Bool.true_and, ih]
      by_cases h : n < bs.length
      · rw [if_pos h, if_pos (by omega), show bs.length - (n + 1) = bs.length - 1 - n by omega]
        simp [List.getElem?_append_left (show bs.length - 1 - n < bs.length by omega)]
      · rw [if_neg h, if_neg (by omega), show n + 1 - (bs.length + 1) = n - bs.length by omega]

/-- Sixteen bits replace the register whole. -/
theorem shiftAll_sixteen (sr v : Word) (bs : List Bool) (hl : bs.length = 16)
    (hb : ∀ i < 16, bs.getD i false = v.getLsbD (15 - i)) : shiftAll sr bs = v := by
  apply BitVec.eq_of_getLsbD_eq
  intro n hn
  rw [shiftAll_bit _ _ _ hn, if_pos (by omega), hb _ (by omega)]
  congr 1
  omega

/-! ### Runs of pulses and of written words -/

/-- The receivers after the words `ws` have been written to DOUT and clocked in, one after another. -/
def clockWords (cs : Chips) (le : Bool) (ws : List Word) : Chips := ws.foldl (fun cs w => cs.clockIn w le) cs

@[simp] theorem clockWords_nle (cs : Chips) (le : Bool) (ws : List Word) :
    (clockWords cs le ws).nle = if le then cs.nle + ws.length else cs.nle := by
  induction ws generalizing cs with
  | nil => cases le <;> rfl
  | cons w ws ih =>
    rw [show clockWords cs le (w :: ws) = clockWords (cs.clockIn w le) le ws from rfl, ih]
    cases le
    · rfl
    · simp only [clockIn_nle, if_true, List.length_cons]
      omega

@[simp] theorem clockWords_armed (cs : Chips) (le : Bool) (ws : List Word) :
    (clockWords cs le ws).armed = cs.armed := by
  induction ws generalizing cs with
  | nil => rfl
  | cons w ws ih => exact ih (cs.clockIn w le)

@[simp] theorem clockWords_pwmResets (cs : Chips) (le : Bool) (ws : List Word) :
    (clockWords cs le ws).pwmResets = cs.pwmResets := by
  induction ws generalizing cs with
  | nil => rfl
  | cons w ws ih => exact ih (cs.clockIn w le)

/-- Each receiver has shifted its own data line in, word by word, and has changed in nothing else. -/
@[simp] theorem clockWords_chip (cs : Chips) (le : Bool) (ws : List Word) (c : Channel) :
    (clockWords cs le ws).chip c =
      { cs.chip c with sr := shiftAll (cs.chip c).sr (ws.map fun w => dataLine w c) } := by
  induction ws generalizing cs with
  | nil => rfl
  | cons w ws ih =>
    rw [show clockWords cs le (w :: ws) = clockWords (cs.clockIn w le) le ws from rfl, ih, clockIn_chip]
    rfl

/-- The events that write the words `ws` and pulse after each. -/
def wordPulses (ws : List Word) : List PinEvent := ws.flatMap fun w => .data w :: pulseEvents

/-- Writing words and pulsing: the last word stays in DOUT, DCLK ends low, the receivers have taken every word in. -/
theorem emitAll_wordPulses (ws : List Word) (s : State) :
    emitAll (wordPulses ws) s = .next { s with
      dout := ws.getLastD s.dout
      dclk := if ws = [] then s.dclk else false
      trace := (wordPulses ws).reverse ++ s.trace
      chips := clockWords s.chips s.le ws } := by
  induction ws generalizing s with
  | nil => rfl
  | cons w ws ih =>
    have hw : emitAll (wordPulses (w :: ws)) s = emitAll (wordPulses ws) { s with
        dout := w, dclk := false, trace := .clkLo :: .clkHi :: .data w :: s.trace, chips := s.chips.clockIn w s.le } := rfl
    rw [hw, ih]
    cases ws <;> simp [wordPulses, pulseEvents, clockWords, List.getLast?_cons]

/-- `n` pulses take the same word in `n` times. -/
theorem emitAll_pulses (n : Nat) (s : State) :
    emitAll (pulses n) s = .next { s with
      dclk := if n = 0 then s.dclk else false
      trace := (pulses n).reverse ++ s.trace
      chips := clockWords s.chips s.le (List.replicate n s.dout) } := by
  induction n generalizing s with
  | zero => rfl
  | succ n ih =>
    rw [pulses_succ, emitAll_append, emitAll_pulse, andThen_next, ih]
    simp [pulseEvents, clockWords, List.replicate_succ]

/-- The end of a strobe: LE drops and the command its count selects is executed. -/
theorem emitAll_leLo (s : State) (c : Strobe) (h : classify s.chips.nle = some c) :
    emitAll [.leLo] s =
      .next { s with le := false, trace := .leLo :: s.trace, chips := s.chips.execute c } := by
  simp [emitAll, emit, h, record]

/-- A strobe of `n` pulses: the command `n` selects, executed on what the pulses shifted in. -/
theorem emitAll_strobe (n : Nat) (s : State) (c : Strobe) (h : classify n = some c) :
    emitAll ([.leHi] ++ pulses n ++ [.leLo]) s = .next { s with
      dclk := if n = 0 then s.dclk else false
      le := false
      trace := ([PinEvent.leHi] ++ pulses n ++ [PinEvent.leLo]).reverse ++ s.trace
      chips := (clockWords s.chips.leRise true (List.replicate n s.dout)).execute c } := by
  have h1 : emitAll [.leHi] s = .next { s with
      le := true, trace := .leHi :: s.trace, chips := s.chips.leRise } := rfl
  rw [emitAll_append, emitAll_append, h1, andThen_next, emitAll_pulses, andThen_next,
    emitAll_leLo _ c (by simp [Chips.leRise, h])]
  simp

/-- A strobe of written words: the command their number selects, executed on what they shifted in. -/
theorem emitAll_wordStrobe (ws : List Word) (s : State) (c : Strobe) (h : classify ws.length = some c) :
    emitAll ([.leHi] ++ wordPulses ws ++ [.leLo]) s = .next { s with
      dout := ws.getLastD s.dout
      dclk := if ws = [] then s.dclk else false
      le := false
      trace := ([PinEvent.leHi] ++ wordPulses ws ++ [PinEvent.leLo]).reverse ++ s.trace
      chips := (clockWords s.chips.leRise true ws).execute c } := by
  have h1 : emitAll [.leHi] s = .next { s with
      le := true, trace := .leHi :: s.trace, chips := s.chips.leRise } := rfl
  rw [emitAll_append, emitAll_append, h1, andThen_next, emitAll_wordPulses, andThen_next,
    emitAll_leLo _ c (by simp [Chips.leRise, h])]
  simp

/-! ### The frames as runs and strobes -/

/-- `F_ENWR` is one pulse and a strobe of 15. -/
theorem enableWriteEvents_eq : enableWriteEvents = pulses 1 ++ ([.leHi] ++ pulses 15 ++ [.leLo]) := rfl

/-- `F_GLATCH` is 13 pulses and a strobe of 3. -/
theorem glatchEvents_eq : glatchEvents = pulses 13 ++ ([.leHi] ++ pulses 3 ++ [.leLo]) := rfl

/-- `F_PWMRST` is 3 pulses and a strobe of 13. -/
theorem pwmrstEvents_eq : pwmrstEvents = pulses 3 ++ ([.leHi] ++ pulses 13 ++ [.leLo]) := rfl

/-- `F_CFG(value)` is six words and a strobe of ten. -/
theorem configEvents_eq (v : Word) : configEvents v =
    wordPulses ((List.range 6).map (configWord v)) ++
      ([.leHi] ++ wordPulses ((List.range' 6 10).map (configWord v)) ++ [.leLo]) := rfl

/-- `F_GROUP(row, g)` is fifteen words with their pulses, the sixteenth word, and a strobe of one. -/
theorem groupEvents_eq (m : List FbCell) (row g : Nat) : groupEvents m row g =
    wordPulses ((List.range 15).map fun i => fbRead m (wordAddr row i (15 - g))) ++
      ([.data (fbRead m (wordAddr row 15 (15 - g)))] ++ ([.leHi] ++ pulses 1 ++ [.leLo])) := rfl

/-- Every data line of a configuration word carries the value's bit. -/
theorem dataLine_configWord (v : Word) (i : Nat) (c : Channel) :
    dataLine (configWord v i) c = v.getLsbD (15 - i) := by
  unfold configWord
  cases c <;> cases v.getLsbD (15 - i) <;> rfl

/-! ### What each frame does -/

/-- Everything `F_ENWR` does, from any state. -/
theorem emitAll_enableWrite (s : State) : emitAll enableWriteEvents s = .next { s with
    dclk := false
    le := false
    trace := enableWriteEvents.reverse ++ s.trace
    chips := (clockWords (clockWords s.chips s.le [s.dout]).leRise true (List.replicate 15 s.dout)).execute
      .enWriteCfg } := by
  rw [enableWriteEvents_eq, emitAll_append, emitAll_pulses, andThen_next, emitAll_strobe 15 _ .enWriteCfg rfl]
  rfl

/-- Everything `F_CFG(value)` does, from any state. -/
theorem emitAll_config (v : Word) (s : State) : emitAll (configEvents v) s = .next { s with
    dout := configWord v 15
    dclk := false
    le := false
    trace := (configEvents v).reverse ++ s.trace
    chips := (clockWords (clockWords s.chips s.le ((List.range 6).map (configWord v))).leRise true
      ((List.range' 6 10).map (configWord v))).execute .writeCfg } := by
  rw [configEvents_eq, emitAll_append, emitAll_wordPulses, andThen_next, emitAll_wordStrobe _ _ .writeCfg rfl]
  rfl

/-- Everything `F_GLATCH` does, from any state. -/
theorem emitAll_glatch (s : State) : emitAll glatchEvents s = .next { s with
    dclk := false
    le := false
    trace := glatchEvents.reverse ++ s.trace
    chips := (clockWords (clockWords s.chips s.le (List.replicate 13 s.dout)).leRise true
      (List.replicate 3 s.dout)).execute .globalLatch } := by
  rw [glatchEvents_eq, emitAll_append, emitAll_pulses, andThen_next, emitAll_strobe 3 _ .globalLatch rfl]
  rfl

/-- Everything `F_PWMRST` does, from any state. -/
theorem emitAll_pwmrst (s : State) : emitAll pwmrstEvents s = .next { s with
    dclk := false
    le := false
    trace := pwmrstEvents.reverse ++ s.trace
    chips := (clockWords (clockWords s.chips s.le (List.replicate 3 s.dout)).leRise true
      (List.replicate 13 s.dout)).execute .pwmReset } := by
  rw [pwmrstEvents_eq, emitAll_append, emitAll_pulses, andThen_next, emitAll_strobe 13 _ .pwmReset rfl]
  rfl

/-- Everything `F_GROUP(row, g)` does, from any state. -/
theorem emitAll_group (m : List FbCell) (row g : Nat) (s : State) : emitAll (groupEvents m row g) s = .next { s with
    dout := fbRead m (wordAddr row 15 (15 - g))
    dclk := false
    le := false
    trace := (groupEvents m row g).reverse ++ s.trace
    chips := (clockWords (clockWords s.chips s.le
      ((List.range 15).map fun i => fbRead m (wordAddr row i (15 - g)))).leRise true
      [fbRead m (wordAddr row 15 (15 - g))]).execute .dataLatch } := by
  have h (w : Word) : emitAll [.data w] = fun s => .next (record (.data w) { s with dout := w }) := rfl
  rw [groupEvents_eq, emitAll_append, emitAll_wordPulses, andThen_next, emitAll_append, h, andThen_next,
    emitAll_strobe 1 _ .dataLatch rfl]
  rfl

end Sys2Proof.Machine
end

