-- ==== Sys2Proof/Laws/Operations.lean ====
section
/-! SUPPORT. For each operation that others share, what it can do and what it leaves alone: the row check, the serving of a
tick, ENCODE's body, the engine's operations, the scheduler's and the Color API's, and the sub-steps of an interrupted
operation. -/

namespace Sys2Proof.Machine

/-! ### The row check and the tick -/

theorem checkRow_lt {row : Nat} {s : State} (f : State → Result) (h : row < s.params.rowCount) :
    checkRow row s f = f s := if_pos h

theorem checkRow_ge {row : Nat} {s : State} (f : State → Result) (h : ¬row < s.params.rowCount) :
    checkRow row s f = .refused .outOfRange := if_neg h

/-- What a checked operation has done when it completes. -/
theorem checkRow_eq_next {row : Nat} {s t : State} {f : State → Result} :
    checkRow row s f = .next t ↔ row < s.params.rowCount ∧ f s = .next t := by
  unfold checkRow
  split <;> simp_all

theorem takeTick_on {s : State} (handler : State → Result) (h : s.tickEn = true) : takeTick handler s = handler s :=
  if_pos h

theorem takeTick_off {s : State} (handler : State → Result) (h : s.tickEn = false) : takeTick handler s = .next s := by
  simp [takeTick, h]

theorem rowCount_pos (p : Params) : 0 < p.rowCount := Nat.succ_pos _

theorem prevRow_lt (s : State) : prevRow s < s.params.rowCount := Nat.mod_lt _ (rowCount_pos _)

theorem nextRow_lt (s : State) : nextRow s < s.params.rowCount := Nat.mod_lt _ (rowCount_pos _)

/-! ### ENCODE's body -/

/-- ENCODE's body changes nothing but the frame buffer. -/
theorem encodeSlot_eq (row col : Nat) (c : Color) (s : State) :
    encodeSlot row col c s = { s with fb := (encodeSlot row col c s).fb } := writePlanes_eq _ _ _

@[simp] theorem encodeSlot_params (row col : Nat) (c : Color) (s : State) :
    (encodeSlot row col c s).params = s.params := writePlanes_params _ _ _

theorem encodeSlot_wf (row col : Nat) (c : Color) {s : State} (h : FbWf s.fb) : FbWf (encodeSlot row col c s).fb :=
  writePlanes_wf _ _ _ h

/-- SET_COLOR_ALL's ENCODEs change nothing but the frame buffer. -/
theorem encodeSlots_eq (c : Color) (ind : Bool) (slot n : Nat) (s : State) :
    encodeSlots c ind slot n s = { s with fb := (encodeSlots c ind slot n s).fb } := by
  induction n generalizing slot s with
  | zero => rfl
  | succ n ih =>
    rw [encodeSlots, ih, encodeSlot_eq]

theorem encodeSlots_wf (c : Color) (ind : Bool) (slot n : Nat) {s : State} (h : FbWf s.fb) :
    FbWf (encodeSlots c ind slot n s).fb := by
  induction n generalizing slot s with
  | zero => exact h
  | succ n ih => exact ih _ (encodeSlot_wf _ _ _ h)

/-! ### The engine's operations -/

/-- WRCFG's body completes from every state. -/
theorem writeConfig_next (v : Word) (s : State) : ∃ t, writeConfig v s = .next t ∧ EmitFrame (wrcfgEvents v) s t := by
  have h : ∃ t, writeConfig v s = .next t := by
    rw [writeConfig, wrcfgEvents, emitAll_append, emitAll_enableWrite, andThen_next, emitAll_config]
    exact ⟨_, rfl⟩
  obtain ⟨t, ht⟩ := h
  exact ⟨t, ht, emitAll_next ht⟩

/-- The transfer groups of a drain complete from every state. -/
theorem emitAll_groups (m : List FbCell) (row : Nat) (gs : List Nat) (s : State) :
    ∃ t, emitAll (gs.flatMap (groupEvents m row)) s = .next t := by
  induction gs generalizing s with
  | nil => exact ⟨s, rfl⟩
  | cons g gs ih => rw [List.flatMap_cons, emitAll_append, emitAll_group, andThen_next]; exact ih _

/-- DRAIN's body, where it runs, completes. -/
theorem drainRow_next {row : Nat} {s : State} (h : row < s.params.rowCount) :
    ∃ t, drainRow row s = .next t ∧ EmitFrame (drainEvents s.fb row) s t := by
  have hx : ∃ t, drainRow row s = .next t := by
    obtain ⟨t, ht⟩ := emitAll_groups s.fb row (List.range 16) s
    rw [drainRow, checkRow_lt _ h, drainEvents, emitAll_append, emitAll_append, ht, andThen_next, emitAll_glatch,
      andThen_next, emitAll_pwmrst]
    exact ⟨_, rfl⟩
  obtain ⟨t, ht⟩ := hx
  exact ⟨t, ht, emitAll_next (checkRow_eq_next.mp ht).2⟩

/-! ### The scheduler and the Color API -/

/-- What TICK's body has gone through when it completes: the row before the cursor off, the drain, the cursor's row on, the
cursor advanced. -/
theorem tickBody_eq_next {s t : State} : tickBody s = .next t ↔
    ∃ u, drainRow s.cursor (setRow (prevRow s) false s) = .next u ∧ t = advanceCursor (setRow u.cursor true u) := by
  simp only [tickBody, andThen_eq_next, Host.Outcome.next.injEq, @eq_comm State t]

/-- INIT's first line changes the row switches and the trace only. -/
theorem allRowsOff_eq (s : State) :
    allRowsOff s = { s with rowEn := (allRowsOff s).rowEn, trace := (allRowsOff s).trace } := by
  have h (rs : List Nat) (s : State) : rs.foldl (fun t r => setRow r false t) s =
      { s with
        rowEn := (rs.foldl (fun t r => setRow r false t) s).rowEn
        trace := (rs.foldl (fun t r => setRow r false t) s).trace } := by
    induction rs generalizing s with
    | nil => rfl
    | cons r rs ih => rw [List.foldl_cons, ih]; rfl
  exact h _ _

/-! ### The sub-steps of an interrupted operation -/

/-- The end of an ENCODE changes DIRTY and the operation in progress only. -/
theorem endEncode_eq (k : JobKind) (s : State) :
    endEncode k s = { s with dirty := (endEncode k s).dirty, busy := (endEncode k s).busy } := by
  cases k with
  | encode => rfl
  | setColor => rfl
  | setColorAll r g b ind slot => by_cases h : slot + 1 < s.params.rowCount * 16 <;> simp [endEncode, h, setDirty]

/-- A sub-step changes the frame buffer, DIRTY and the operation in progress only. -/
theorem subStep_eq (j : Job) (s : State) : subStep j s =
    { s with fb := (subStep j s).fb, dirty := (subStep j s).dirty, busy := (subStep j s).busy } := by
  have h : subStep j s = { writePlanes j.enc (subStepWrites s.params j.enc) s with
      dirty := (subStep j s).dirty, busy := (subStep j s).busy } := by
    unfold subStep
    simp only
    split
    · rfl
    · exact endEncode_eq _ _
  rw [h, writePlanes_eq]

/-- Sub-steps change the frame buffer, DIRTY and the operation in progress only. -/
theorem runFor_eq (k : Nat) (s : State) : runFor k s =
    { s with fb := (runFor k s).fb, dirty := (runFor k s).dirty, busy := (runFor k s).busy } := by
  induction k generalizing s with
  | zero => rfl
  | succ k ih =>
    unfold runFor
    split
    · rfl
    · rw [ih, subStep_eq]

end Sys2Proof.Machine
end

