-- ==== Sys2Proof/Laws/PerInstr.lean ====
section
/-! SUPPORT. One family of statements made per operation: what the code of an operation is. -/

namespace Sys2Proof.Laws.CodeKind

/-- An operation that has a command word has one with an assigned opcode, 1 to 7, and an operation that has a strobe count has
one that selects a command when the operation is well formed (30_encoding.md rules R83, R85). -/
def Statement (i : Instr) : Prop :=
  (∀ w, Sys2Proof.encode i = some (.command w) → 1 ≤ (opField w).toNat ∧ (opField w).toNat ≤ 7) ∧
  (∀ n, i.wellFormed = true → Sys2Proof.encode i = some (.strobe n) → (classify n).isSome = true)

theorem of_none {i : Instr} (h : Sys2Proof.encode i = none) : Statement i := by
  simp [Statement, h]

theorem of_command {i : Instr} {w : CommandWord} (h : Sys2Proof.encode i = some (.command w))
    (hop : 1 ≤ (opField w).toNat ∧ (opField w).toNat ≤ 7) : Statement i := by
  simp [Statement, h, hop]

theorem of_strobe {i : Instr} {n : Nat} (h : Sys2Proof.encode i = some (.strobe n))
    (hc : i.wellFormed = true → (classify n).isSome = true) : Statement i := by
  simpa [Statement, h] using hc

/-- The opcode field of a word made of an opcode and fields below bit 36. -/
theorem opField_place (op : BitVec 4) (x : CommandWord) (h : ∀ k < 4, x.getLsbD (36 + k) = false) :
    opField (place 36 op ||| x) = op := by
  ext k hk
  have h40 : 36 + k < 40 := by omega
  have hx : x[36 + k] = false := by simpa [BitVec.getLsbD_eq_getElem, h40] using h k hk
  simp [opField, place, hk, hx, h40]

theorem place_high {k : Nat} (n : Nat) (x : BitVec k) (h : n + k ≤ 36) (i : Nat) :
    (place n x).getLsbD (36 + i) = false := by
  simp only [place, BitVec.getLsbD_shiftLeft, BitVec.getLsbD_setWidth]
  simp [BitVec.getLsbD_of_ge x (36 + i - n) (by omega)]

theorem init : Statement (.init) := of_command rfl (by decide)

theorem encode (row : BitVec 8) (col : BitVec 4) (r g b : Level) : Statement (.encode row col r g b) := by
  refine of_command rfl ?_
  simp only [BitVec.or_assoc]
  rw [opField_place _ _ (by intro k _; simp [place_high])]
  decide

theorem setColor (index : BitVec 12) (r g b : Level) : Statement (.setColor index r g b) := by
  refine of_command rfl ?_
  simp only [BitVec.or_assoc]
  rw [opField_place _ _ (by intro k _; simp [place_high])]
  decide

theorem setColorAll (r g b : Level) : Statement (.setColorAll r g b) := by
  refine of_command rfl ?_
  simp only [BitVec.or_assoc]
  rw [opField_place _ _ (by intro k _; simp [place_high])]
  decide

theorem setGain (gain : BitVec 6) : Statement (.setGain gain) := by
  refine of_command rfl ?_
  rw [opField_place _ _ (by intro k _; simp [place_high])]
  decide

theorem wrcfg (value : Word) : Statement (.wrcfg value) := by
  refine of_command rfl ?_
  rw [opField_place _ _ (by intro k _; simp [place_high])]
  decide

theorem drain (row : BitVec 8) : Statement (.drain row) := by
  refine of_command rfl ?_
  rw [opField_place _ _ (by intro k _; simp [place_high])]
  decide

theorem tick : Statement (.tick) := of_none rfl

theorem glookup (v : Level) : Statement (.glookup v) := of_none rfl

theorem pulse : Statement (.pulse) := of_none rfl

theorem leHi : Statement (.leHi) := of_none rfl

theorem leLo : Statement (.leLo) := of_none rfl

theorem doutWr (w : Word) : Statement (.doutWr w) := of_none rfl

theorem glatch : Statement (.glatch) := of_none rfl

theorem pwmrst : Statement (.pwmrst) := of_none rfl

theorem rowSet (r : BitVec 8) (v : Bool) : Statement (.rowSet r v) := of_none rfl

theorem dataLatch (n : Nat) : Statement (.dataLatch n) := by
  refine of_strobe rfl fun h => ?_
  simp only [Instr.wellFormed, Bool.or_eq_true, beq_iff_eq] at h
  rcases h with rfl | rfl <;> rfl

theorem globalLatch (n : Nat) : Statement (.globalLatch n) := by
  refine of_strobe rfl fun h => ?_
  simp only [Instr.wellFormed, Bool.or_eq_true, beq_iff_eq] at h
  rcases h with rfl | rfl <;> rfl

theorem readCfg (n : Nat) : Statement (.readCfg n) := by
  refine of_strobe rfl fun h => ?_
  simp only [Instr.wellFormed, Bool.or_eq_true, beq_iff_eq] at h
  rcases h with rfl | rfl <;> rfl

theorem writeCfg (n : Nat) : Statement (.writeCfg n) := by
  refine of_strobe rfl fun h => ?_
  simp only [Instr.wellFormed, Bool.or_eq_true, beq_iff_eq] at h
  rcases h with rfl | rfl <;> rfl

theorem pwmReset : Statement (.pwmReset) := of_strobe rfl fun _ => rfl

theorem enWriteCfg (n : Nat) : Statement (.enWriteCfg n) := by
  refine of_strobe rfl fun h => ?_
  simp only [Instr.wellFormed, Bool.or_eq_true, beq_iff_eq] at h
  rcases h with rfl | rfl <;> rfl

end Sys2Proof.Laws.CodeKind
end

