-- ==== Sys2Proof/Tests/Slice0.lean ====
section
/-! SUPPORT. Tests: ill-formed terms refused, codes written out bit by bit from 30_encoding.md, single operations with the
expected values of 95_test_vectors.md, and for every statement with hypotheses a witness that meets them all. -/

namespace Sys2Proof.Tests

open Sys2Proof.Machine

-- One test at a time: the kernel evaluations side by side take several times the memory and save no time.
set_option Elab.async false

/-! ### The states the tests start from -/

/-- The reset state with the example parameter set; the chips power up with a configuration that no test writes. -/
def demo : State := State.resetWith Config.exampleParams fun _ => 0xBEEF

/-- The same under `EXCL = none`. -/
def demoNone : State := State.resetWith { Config.exampleParams with excl := .noExcl } fun _ => 0xBEEF

/-- The same with the reference CIE gamma. -/
def demoCie : State := State.resetWith { Config.exampleParams with gamma := Config.gammaCieRef } fun _ => 0xBEEF

/-- The same with `INDICATOR_INDEX = 30` and the input `indicator_active` at `level`. -/
def demoInd (level : Bool) : State :=
  { State.resetWith { Config.exampleParams with indicatorIndex := some 30 } (fun _ => 0xBEEF) with indicator := level }

/-- What `f` reads of the state an operation leaves; none where it stops. -/
def after {α : Type} (o : Result) (f : State → α) : Option α :=
  match o with
  | .next t => some (f t)
  | .fault _ => none
  | .refused _ => none

/-- The fault an operation ends in. -/
def faultOf (o : Result) : Option Fault :=
  match o with
  | .next _ => none
  | .fault f => some f
  | .refused _ => none

/-- The refusal an operation ends in. -/
def refusalOf (o : Result) : Option Refusal :=
  match o with
  | .next _ => none
  | .fault _ => none
  | .refused r => some r

/-- The sixteen words of a slot, plane 0 first. -/
def slot (row col : Nat) (s : State) : List Word := (List.range 16).map (s.word row col)

/-- Both sides of a decoded code. -/
def decoded (c : Code) : Option Instr :=
  match decodeCode c with
  | .ok i => some i
  | .error _ => none

/-! ### WellFormed: an ill-formed term for each check -/

theorem test_wf_dataLatch : (Instr.dataLatch 2).wellFormed = false ∧ (Instr.dataLatch 1).wellFormed = true := by decide

theorem test_wf_globalLatch :
    (Instr.globalLatch 1).wellFormed = false ∧ (Instr.globalLatch 4).wellFormed = false ∧
      (Instr.globalLatch 3).wellFormed = true := by decide

theorem test_wf_readCfg :
    (Instr.readCfg 3).wellFormed = false ∧ (Instr.readCfg 6).wellFormed = false ∧
      (Instr.readCfg 5).wellFormed = true := by decide

theorem test_wf_writeCfg :
    (Instr.writeCfg 9).wellFormed = false ∧ (Instr.writeCfg 12).wellFormed = false ∧
      (Instr.writeCfg 11).wellFormed = true := by decide

theorem test_wf_enWriteCfg :
    (Instr.enWriteCfg 13).wellFormed = false ∧ (Instr.enWriteCfg 16).wellFormed = false ∧
      (Instr.enWriteCfg 14).wellFormed = true := by decide

/-- Whether an operation answers a next state. -/
def completes (o : Result) : Bool :=
  match o with
  | .next _ => true
  | .fault _ => false
  | .refused _ => false

theorem exists_next {o : Result} (h : completes o = true) : ∃ t, o = .next t := by
  cases o with
  | next t => exact ⟨t, rfl⟩
  | fault f => cases h
  | refused r => cases h

/-! ### Decoding: codes written out from 30_encoding.md rules R83 to R85, field by field -/

/-- Op 0x1; every other bit is unused and here 1 (rule R89 (c), V67). -/
theorem test_decode_init :
    decoded (.command 0b0001_11111111_1111_11111111_11111111_11111111#40) = some .init := by decide

/-- Op 0x2, row 1, col 2, r 0xAA, g 0x55, b 0x0F (program P2). -/
theorem test_decode_encode :
    decoded (.command 0b0010_00000001_0010_10101010_01010101_00001111#40) =
      some (.encode 1 2 0xAA 0x55 0x0F) := by decide

/-- Op 0x3, index 999 = 0b001111100111, r 10, g 20, b 30 (program P4). -/
theorem test_decode_setColor :
    decoded (.command 0b0011_001111100111_00001010_00010100_00011110#40) = some (.setColor 999 10 20 30) := by decide

/-- Op 0x4, bits 35 to 24 unused and here 1, r 1, g 2, b 4. -/
theorem test_decode_setColorAll :
    decoded (.command 0b0100_11111111_1111_00000001_00000010_00000100#40) = some (.setColorAll 1 2 4) := by decide

/-- Op 0x5, gain in bits 5 to 0, bits 7 and 6 unused and here 1 (V67). -/
theorem test_decode_setGain :
    decoded (.command 0b0101_00000000_0000_00000000_00000000_11010101#40) = some (.setGain 0b010101) := by decide

/-- Op 0x6, value 0xA5C3 in bits 15 to 0 (program P3). -/
theorem test_decode_wrcfg :
    decoded (.command 0b0110_00000000_0000_00000000_10100101_11000011#40) = some (.wrcfg 0xA5C3) := by decide

/-- Op 0x7, row 0x81 in bits 35 to 28, the rest unused and here 1. -/
theorem test_decode_drain :
    decoded (.command 0b0111_10000001_1111_11111111_11111111_11111111#40) = some (.drain 0x81) := by decide

/-- Ops 0x0, 0x8, 0x9, 0xF are reserved (V67). -/
theorem test_decode_reserved :
    ([0x0000000000#40, 0x8000000000#40, 0x9000010000#40, 0xF000000000#40].map fun w => decoded (.command w)) =
      [none, none, none, none] := by decide

/-- The strobe counts of V40. -/
theorem test_decode_strobe :
    ([0, 1, 2, 3, 4, 5, 10, 11, 13, 14, 15].map fun n => decoded (.strobe n)) =
      [some (.dataLatch 0), some (.dataLatch 1), some (.globalLatch 2), some (.globalLatch 3), some (.readCfg 4),
        some (.readCfg 5), some (.writeCfg 10), some (.writeCfg 11), some .pwmReset, some (.enWriteCfg 14),
        some (.enWriteCfg 15)] := by decide

/-- The `UNSPEC` counts of V40. -/
theorem test_decode_unspec :
    ([6, 7, 8, 9, 12, 16, 17, 100].map fun n => decoded (.strobe n)) =
      [none, none, none, none, none, none, none, none] := by decide

/-- The encoder writes the words of programs P1 to P4. -/
theorem test_encode_words :
    ([.init, .setColor 0 255 0 0, .encode 4 15 1 2 4, .wrcfg 0xA5C3, .setGain 0x3F, .setColorAll 0x80 0x80 0x80,
      .drain 2].map encode) =
      [some (.command 0x1000000000#40), some (.command 0x3000FF0000#40), some (.command 0x204F010204#40),
        some (.command 0x600000A5C3#40), some (.command 0x500000003F#40), some (.command 0x4000808080#40),
        some (.command 0x7020000000#40)] := by decide

/-- The host's reader: 40 bits are a command word. -/
theorem test_decodeTableWord :
    decodeTableWord 40 0x204F010204 = some (.encode 4 15 1 2 4) ∧ decodeTableWord 40 0 = none := by decide

/-! ### The machine takes a command word as its first operation after reset, whatever its parameters are -/

theorem test_first_init : completes (step (State.reset.withFetchWord 40 0x1000000000)) = true := by decide +kernel

theorem test_first_encode : completes (step (State.reset.withFetchWord 40 0x2000000000)) = true := by decide +kernel

theorem test_first_setColor : completes (step (State.reset.withFetchWord 40 0x3000000000)) = true := by decide +kernel

theorem test_first_setColorAll : completes (step (State.reset.withFetchWord 40 0x4000000000)) = true := by decide +kernel

theorem test_first_setGain : completes (step (State.reset.withFetchWord 40 0x5000000000)) = true := by decide +kernel

theorem test_first_wrcfg : completes (step (State.reset.withFetchWord 40 0x6000000000)) = true := by decide +kernel

theorem test_first_drain : completes (step (State.reset.withFetchWord 40 0x7000000000)) = true := by decide +kernel

/-! ### The parameters -/

/-- 40_gamma_rom.md rule R112 (a). -/
theorem gammaLin_get (i : Nat) (h : i < 256) : Config.gammaLin[i] = BitVec.ofNat 16 (i * 257) := by
  simp [Config.gammaLin]

/-- The example set meets the constraints of 00_scope.md rule R8. -/
theorem test_example_valid : Config.exampleParams.Valid := by
  refine ⟨gammaLin_get 0 (by decide), fun i => ?_, by decide, by decide, by decide, by decide, by decide⟩
  change Config.gammaLin[i.val] ≤ Config.gammaLin[i.val + 1]
  have hi := i.isLt
  rw [gammaLin_get, gammaLin_get, BitVec.le_def, BitVec.toNat_ofNat, BitVec.toNat_ofNat,
    Nat.mod_eq_of_lt (by omega), Nat.mod_eq_of_lt (by omega)]
  omega

/-- The 256 numbers of 40_gamma_rom.md rule R112 (b). -/
def cieRef : List Nat := Config.cieRef0 ++ Config.cieRef1 ++ Config.cieRef2 ++ Config.cieRef3

/-- They rise, and each is a 16-bit value. -/
theorem cie_chain : cieRef.IsChain (· ≤ ·) ∧ cieRef.all (fun v => decide (v < 65536)) = true := by decide +kernel

theorem gammaCie_get (i : Nat) (h : i < 256) (h' : i < cieRef.length) :
    Config.gammaCieRef[i]'h = BitVec.ofNat 16 (cieRef[i]'h') := by
  unfold Config.gammaCieRef cieRef
  rw [Vector.getElem_mk, List.getElem_toArray, List.getElem_map]
  rfl

/-- So does the set with the reference CIE gamma. -/
theorem test_cie_valid : ({ Config.exampleParams with gamma := Config.gammaCieRef } : Params).Valid := by
  have ⟨_, _, hcount, hrows, hindicator, henable, hgain⟩ := test_example_valid
  refine ⟨gammaCie_get 0 (by decide) (by rw [cieRef, Config.cieRef_length]; decide), fun i => ?_, hcount, hrows, hindicator, henable, hgain⟩
  change Config.gammaCieRef[i.val] ≤ Config.gammaCieRef[i.val + 1]
  have hl : cieRef.length = 256 := Config.cieRef_length
  rw [gammaCie_get i.val (by omega) (by omega), gammaCie_get (i.val + 1) (by omega) (by omega), BitVec.le_def, BitVec.toNat_ofNat, BitVec.toNat_ofNat,
    Nat.mod_eq_of_lt (of_decide_eq_true (List.all_eq_true.mp cie_chain.2 _ (List.getElem_mem _))), Nat.mod_eq_of_lt (of_decide_eq_true (List.all_eq_true.mp cie_chain.2 _ (List.getElem_mem _)))]
  exact List.isChain_iff_getElem.mp cie_chain.1 i.val (by omega)

/-- The example's `DEFAULT_GAIN` (95_test_vectors.md); a `CFG_DEFAULT` whose enable bit is clear is refused, and so is an enable bit
inside the gain field. -/
theorem test_configuration_valid :
    Config.exampleParams.defaultGain = 0x2B ∧
    ¬({ Config.exampleParams with cfgDefault := 0x0000 } : Params).Valid ∧
    ¬({ Config.exampleParams with enableBit := 4 } : Params).Valid :=
  ⟨by decide, fun h => absurd h.2.2.2.2.2.1 (by decide), fun h => absurd h.2.2.2.2.2.2 (by decide)⟩

/-! ### GLOOKUP -/

/-- V1 to V6. -/
theorem test_glookup_lin :
    ([0x00, 0x01, 0x12, 0x7F, 0x80, 0xFF].map fun v => after (exec (.glookup v) demo) (·.lookup)) =
      [some 0x0000, some 0x0101, some 0x1212, some 0x7F7F, some 0x8080, some 0xFFFF] := by decide +kernel

/-- V7 to V9. -/
theorem test_glookup_cie :
    ([0x01, 0x02, 0x0A, 0x14, 0x15, 0x40, 0x7F, 0x80, 0xFE, 0xFF].map fun v =>
      after (exec (.glookup v) demoCie) (·.lookup)) =
      [some 28, some 57, some 285, some 569, some 598, some 2914, some 11963, some 12179, some 64873,
        some 65535] := by decide +kernel

/-! ### ENCODE -/

/-- V15: the last row and column, word addresses 1269 and on listed, within 1264 to 1279; V19: row 5 is refused. -/
theorem test_encode_last :
    after (exec (.encode 4 15 1 2 4) demo) (·.fb) =
      some [(1269, 0x1000), (1270, 0x2000), (1271, 0x4000), (1277, 0x1000), (1278, 0x2000), (1279, 0x4000)] ∧
    refusalOf (exec (.encode 5 0 1 1 1) demo) = some .outOfRange := by decide +kernel

/-- V17, with the reference CIE gamma. -/
theorem test_encode_cie :
    after (exec (.encode 0 0 128 64 10) demoCie) (slot 0 0) =
      some [0x0000, 0x0000, 0x4000, 0x0000, 0x6000, 0x4000, 0x6000, 0x7000, 0x4000, 0x2000, 0x2000, 0x5000, 0x1000,
        0x1000, 0x6000, 0x5000] := by decide +kernel

/-! ### Pins and receivers -/

/-- Rule R151: bit 14 of DOUT is the R line. Rule R130: the events of one PULSE. -/
theorem test_pulse :
    after (exec .pulse { demo with dout := 0x4000, le := true }) (fun t =>
      (t.chips.r.sr, t.chips.g.sr, t.chips.b.sr, t.chips.nle, t.pinTrace)) =
      some (1, 0, 0, 1, [.clkHi, .clkLo]) := by decide

/-- Rules R131, R152. -/
theorem test_leHi :
    after (exec .leHi { demo with chips := { demo.chips with nle := 7 } }) (fun t => (t.le, t.chips.nle, t.pinTrace)) =
      some (true, 0, [.leHi]) := by decide

/-- Rule R147: a strobe of 12 pulses is a fault of the receivers; rule R132: one of 15 arms them. -/
theorem test_leLo :
    faultOf (exec .leLo { demo with le := true, chips := { demo.chips with nle := 12 } }) = some .unspecStrobe ∧
    after (exec .leLo { demo with le := true, chips := { demo.chips with nle := 15 } })
      (fun t => (t.le, t.chips.armed, t.pinTrace)) = some (false, true, [.leLo]) := by decide

/-- Rule R133: the event is emitted also where DOUT holds the word already. -/
theorem test_doutWr :
    after (exec (.doutWr 0) demo) (fun t => (t.dout, t.pinTrace)) = some (0, [.data 0]) := by decide

/-- Rule R141. -/
theorem test_dataLatch :
    after (exec (.dataLatch 1) { demo with chips := { demo.chips with r := ⟨0x1234, 0, [0x0001], []⟩, armed := true } })
      (fun t => (t.chips.r.latched, t.chips.armed)) = some ([0x0001, 0x1234], false) := by decide

/-- Rule R142. -/
theorem test_globalLatch :
    after (exec (.globalLatch 3) { demo with chips := { demo.chips with g := ⟨0, 0, [1, 2], [3]⟩ } })
      (fun t => (t.chips.g.latched, t.chips.g.active)) = some ([], [1, 2]) := by decide

/-- Rule R143. -/
theorem test_readCfg :
    after (exec (.readCfg 4) { demo with chips := { demo.chips with armed := true } })
      (fun t => (t.chips.armed, t.chips.r.cfg)) = some (false, 0xBEEF) := by decide

/-- Rule R144, armed. -/
theorem test_writeCfg_armed :
    after (exec (.writeCfg 10) { demo with chips := { demo.chips with b := ⟨0x00FF, 0, [], []⟩, armed := true } })
      (fun t => (t.chips.b.cfg, t.chips.armed)) = some (0x00FF, false) := by decide

/-- The events of V26: six pulses and a strobe of ten, with DOUT at 0x7000. -/
def eventsV26 : List PinEvent :=
  PinEvent.data 0x7000 :: (pulses 6 ++ PinEvent.leHi :: pulses 10 ++ [PinEvent.leLo])

/-- V26: Write Configuration without Enable-Write changes nothing; the shift register holds sixteen ones. -/
theorem test_writeCfg_unarmed :
    after (emitAll eventsV26 demo)
      (fun t => (t.chips.r.cfg, t.chips.r.sr, t.chips.armed)) = some (0xBEEF, 0xFFFF, false) := by decide +kernel

/-- Rule R145. -/
theorem test_enWriteCfg :
    after (exec (.enWriteCfg 14) demo) (fun t => t.chips.armed) = some true := by decide

/-- Rule R146. -/
theorem test_pwmReset :
    after (exec .pwmReset demo) (fun t => (t.chips.pwmResets, t.chips.armed)) = some (1, false) := by decide

/-! ### The protocol engine -/

/-- The complete trace of V20: the Enable-Write frame, six words, `L+`, ten words, `L-`. -/
def traceV20 : List PinEvent :=
  pulses 1 ++ PinEvent.leHi :: pulses 15 ++ PinEvent.leLo ::
    wordPulses [0x7000, 0x0000, 0x7000, 0x0000, 0x0000, 0x7000] ++ PinEvent.leHi ::
      wordPulses [0x0000, 0x7000, 0x7000, 0x7000, 0x0000, 0x0000, 0x0000, 0x0000, 0x7000, 0x7000] ++ [PinEvent.leLo]

theorem test_wrcfg_trace :
    after (exec (.wrcfg 0xA5C3) demo) (·.pinTrace) = some traceV20 ∧ traceV20.length = 84 := by decide +kernel

/-- V20, the receivers and the pins. -/
theorem test_wrcfg_chips :
    after (exec (.wrcfg 0xA5C3) demo) (fun t =>
      ([t.chips.r.cfg, t.chips.g.cfg, t.chips.b.cfg, t.dout], [t.chips.armed, t.dclk, t.le])) =
      some ([0xA5C3, 0xA5C3, 0xA5C3, 0x7000], [false, false, false]) := by decide +kernel

/-- The frame buffer of V33 and V32 together would mix them; this is V32's: slot (0, 15) with planes 0 and 8 red. -/
def demoV32 : State := { demo with fb := [(240, 0x4000), (248, 0x4000)] }

/-- V32: column 15 lands in bit 0, and the last word fetched stays in DOUT and fills the R chain. -/
theorem test_drain_v32 :
    after (exec (.drain 0) demoV32) (fun t => (t.chips.r.active, t.chips.r.sr, t.chips.g.sr, t.dout)) =
      some ([0, 0, 0, 0, 0, 0, 0, 1, 0, 0, 0, 0, 0, 0, 0, 1], 0xFFFF, 0x0000, 0x4000) := by decide +kernel

/-- V35: the counts on the reset state; V36: row 5 is refused. -/
theorem test_drain_counts :
    after (exec (.drain 0) demo) (fun t => (t.trace.length, strobeCounts none t.pinTrace, t.chips.pwmResets)) =
      some (868, [1, 1, 1, 1, 1, 1, 1, 1, 1, 1, 1, 1, 1, 1, 1, 1, 3, 13], 1) ∧
    refusalOf (exec (.drain 5) demo) = some .outOfRange := by decide +kernel

/-- Rule R137: what was latched is shown. -/
theorem test_glatch :
    after (exec .glatch { demo with chips := { demo.chips with r := ⟨0, 0, [5], []⟩ } })
      (fun t => (t.chips.r.active, t.trace.length)) = some ([5], 34) := by decide +kernel

/-- Rule R138. -/
theorem test_pwmrst :
    after (exec .pwmrst demo) (fun t => (t.chips.pwmResets, t.trace.length)) = some (1, 34) := by decide +kernel

/-! ### The scheduler -/

/-- V50, before INIT: the tick is ignored. -/
theorem test_tick_ignored : after (exec .tick demo) id = some demo := rfl

/-- V50, the fifth tick: row 3 off, row 4 drained and on, the cursor wraps. -/
theorem test_tick_wraps :
    after (exec .tick { demo with tickEn := true, cursor := 4, rowEn := [false, false, false, true, false] })
      (fun t => (t.cursor, t.rowEn, t.trace.length, t.trace.head?, t.trace.getLast?)) =
      some (0, [false, false, false, false, true], 870, some (.row 4 true), some (.row 3 false)) := by decide +kernel

/-- Rule R171: the event is emitted also where the pin has the level already; a row beyond ROW_COUNT has no pin. -/
theorem test_rowSet :
    after (exec (.rowSet 4 false) demo) (fun t => (t.rowEn, t.pinTrace)) =
      some ([false, false, false, false, false], [.row 4 false]) ∧
    refusalOf (exec (.rowSet 5 true) demo) = some .outOfRange := by decide

/-! ### The host's operations -/

/-- V61, the boundary: LED 74 is at (4, 10). -/
theorem test_setColor_last :
    after (exec (.setColor 74 1 2 4) demo) (fun t => (slot 4 10 t, t.dirty)) =
      some ([0, 0, 0, 0, 0, 0x1000, 0x2000, 0x4000, 0, 0, 0, 0, 0, 0x1000, 0x2000, 0x4000], true) ∧
    after (exec (.setColor 75 1 2 4) demo) (fun t => (t.fb, t.dirty)) = some ([], false) := by decide +kernel

/-- V64: the indicator LED is forced white while the input is 1, and only it. -/
theorem test_setColor_indicator :
    after (exec (.setColor 30 1 2 3) (demoInd true)) (slot 1 14) = some (List.replicate 16 0x7000) ∧
    after (exec (.setColor 31 1 2 3) (demoInd true)) (slot 1 15) =
      some [0, 0, 0, 0, 0, 0, 0x3000, 0x5000, 0, 0, 0, 0, 0, 0, 0x3000, 0x5000] := by decide +kernel

/-- V62: every word 0 but the indicator's slot, whose sixteen words start at word address 480. -/
theorem test_setColorAll_indicator :
    after (exec (.setColorAll 0 0 0) (demoInd true)) (fun t => (t.fb, t.dirty)) =
      some ((List.range 16).map fun p => (480 + p, 0x7000#16), true) := by decide +kernel

/-- V66, the values sent. -/
theorem test_setGain_values :
    ([0x3F, 0x00, 0x2B, 0x15].map (gainValue Config.exampleParams)) = [0x03F1, 0x0001, 0x02B1, 0x0151] ∧
    gainValue { Config.exampleParams with gainLsb := 10, cfgDefault := 0xFFFF } 0x00 = 0x03FF ∧
    gainValue { Config.exampleParams with gainLsb := 0, cfgDefault := 0x8000 } 0x3F = 0x803F := by decide

/-- V66, one of them sent. -/
theorem test_setGain :
    after (exec (.setGain 0x15) demo) (fun t => (t.chips.r.cfg, t.trace.length, t.dout)) =
      some (0x0151, 84, 0x7000) := by decide +kernel

/-- V63. -/
theorem test_init :
    after (exec .init { demo with cursor := 3, rowEn := [false, false, true, false, false] })
      (fun t => (t.pinTrace.take 5, [t.trace.length, t.cursor], t.tickEn :: t.rowEn, [t.dout, t.chips.b.cfg])) =
      some ([.row 0 false, .row 1 false, .row 2 false, .row 3 false, .row 4 false], [89, 0],
        [true, false, false, false, false, false], [0x7000, 0x02B1]) := by decide +kernel

/-! ### Environment -/

/-- V54: nine of sixteen word writes done when the tick comes. -/
theorem test_tearing_v54 :
    after (step { demoNone with fb := (encodeSlot 0 3 (0x12, 0x80, 0xFF) demoNone).fb, stim := [.cmdUntil 0x2003FF0080 9] })
      (fun t => (slot 0 3 t, t.dec 0 3 14, t.dec 0 3 13, t.dec 0 3 12)) =
      some ([0x5000, 0x4000, 0x4000, 0x4000, 0x4000, 0x4000, 0x4000, 0x4000, 0x5000, 0x1000, 0x1000, 0x5000, 0x1000,
        0x1000, 0x5000, 0x1000], 0xFF92, 0x0000, 0x80FF) := by decide +kernel

/-- V67, at the command port. -/
theorem test_reserved_refused :
    refusalOf (step { demo with stim := [.cmd 0x9000010000] }) = some .reservedOp := by decide

/-- 60_exceptions.md rule R211. -/
theorem test_overrun :
    faultOf (step { demo with tickEn := true, stim := [.tickInTick] }) = some .overrun := by decide

/-! ### Witnesses: for each statement with hypotheses, inputs that meet them all -/

/-- `demo` with something for the environment to do. -/
def demoStim (stim : List Stim) : State := { demo with stim := stim }

/-- `demo` with ticks enabled, row 0 lit, the cursor at 1, and a SET_COLOR_ALL 0, 0, 0 in progress at its fourth slot. -/
def demoBusy (stim : List Stim) : State :=
  { demo with
    tickEn := true, cursor := 1, rowEn := [true, false, false, false, false], stim := stim
    busy := some ⟨.setColorAll 0 0 0 false 3, slotEncoder Config.exampleParams (0, 0, 0) false 3⟩ }

/-- A frame buffer with words in row 4 only: those of slot (4, 15) after ENCODE 4, 15, 1, 2, 4 (V15). -/
def fbV15 : List FbCell :=
  [(1269, 0x1000), (1270, 0x2000), (1271, 0x4000), (1277, 0x1000), (1278, 0x2000), (1279, 0x4000)]

theorem witness_DecodeEncodeRoundTrip :
    (∀ i ∈ [Instr.encode 255 15 255 255 255, .setColor 4095 0 255 0, .setColorAll 255 0 1, .setGain 63, .wrcfg 0xFFFF,
      .drain 255, .init, .dataLatch 0, .globalLatch 3, .readCfg 4, .writeCfg 11, .pwmReset, .enWriteCfg 15],
      i.wellFormed = true ∧ (encode i).isSome = true) ∧
    (Instr.dataLatch 1).wellFormed = true ∧ encode (.dataLatch 1) = some (.strobe 1) := by decide

theorem witness_DecodedCodeReencodes :
    decode 0x7FFFFFFFFF#40 = .ok (.drain 255) ∧ decodeStrobe 0 = .ok (.dataLatch 0) ∧
      decodeStrobe 15 = .ok (.enWriteCfg 15) := by decide

theorem witness_UnusedFieldsIgnored :
    0x1000000000#40 &&& usedBits 0x1000000000#40 = 0x1FFFFFFFFF#40 &&& usedBits 0x1000000000#40 := by decide

theorem witness_ReservedOpcodesRefused :
    (demoStim [.cmd 0x0FFFFFFFFF]).busy = none ∧ (opField 0x0FFFFFFFFF#40).toNat = 0 ∧
    (demoStim [.cmdUntil 0x8000000000 3]).busy = none ∧ 8 ≤ (opField 0x8000000000#40).toNat ∧
    8 ≤ (opField 0xF000000000#40).toNat := by decide

theorem witness_StrobeCountSelectsCommand :
    classify 0 = some .dataLatch ∧ classify 1 = some .dataLatch ∧ classify 2 = some .globalLatch ∧
    classify 3 = some .globalLatch ∧ classify 4 = some .readCfg ∧ classify 5 = some .readCfg ∧ classify 6 = none ∧
    classify 9 = none ∧ classify 10 = some .writeCfg ∧ classify 11 = some .writeCfg ∧ classify 12 = none ∧
    classify 13 = some .pwmReset ∧ classify 14 = some .enWriteCfg ∧ classify 15 = some .enWriteCfg ∧
    classify 16 = none := by decide

theorem witness_StrobeCountSelectsCommand_events :
    PinEvent.leHi ∉ wordPulses [1, 2] ∧ PinEvent.leLo ∉ wordPulses [1, 2] ∧ classify ((wordPulses [1, 2]).count .clkHi) =
      some .globalLatch ∧ classify ((pulses 16).count .clkHi) = none := by decide

theorem witness_StepRunsCommand :
    (demoStim [.cmd 0x1000000000, .tick]).busy = none ∧
    (demoStim [.cmd 0x1000000000, .tick]).stim = .cmd 0x1000000000 :: [.tick] ∧
    decode 0x1000000000#40 = .ok .init := ⟨rfl, rfl, by decide⟩

theorem witness_StepServesTick : (demoBusy [.tick, .reset]).stim = .tick :: [.reset] := rfl

theorem witness_TickInsideTickOverruns :
    (demoBusy [.tickInTick]).stim = .tickInTick :: [] ∧ (demoBusy [.tickInTick]).tickEn = true ∧
    (demoStim [.tickInTick]).stim = .tickInTick :: [] ∧ (demoStim [.tickInTick]).tickEn = false := ⟨rfl, rfl, rfl, rfl⟩

theorem witness_HostEventsTouchTheirBitOnly :
    (demoStim [.clearDirty]).stim = .clearDirty :: [] ∧ (demoBusy [.indicator true]).stim = .indicator true :: [] ∧
    (demoStim []).stim = [] ∧ (demoStim []).busy = none := ⟨rfl, rfl, rfl, rfl⟩

theorem witness_AtomicOperationsHoldEventsOff_maskTick :
    (demoStim [.cmdUntil 0x2000FF0000 3, .tick]).busy = none ∧
    (demoStim [.cmdUntil 0x2000FF0000 3, .tick]).stim = .cmdUntil 0x2000FF0000 3 :: [.tick] ∧
    decode 0x2000FF0000#40 = .ok (.encode 0 0 255 0 0) ∧ (∀ r g b, Instr.encode 0 0 255 0 0 ≠ .setColorAll r g b) ∧
    (demoStim [.cmdUntil 0x2000FF0000 3, .tick]).params.excl = .maskTick := by
  exact ⟨rfl, rfl, by decide, by simp, rfl⟩

theorem witness_AtomicOperationsHoldEventsOff_always :
    decode 0x1000000000#40 = .ok .init ∧ decode 0x500000003F#40 = .ok (.setGain 0x3F) ∧
    decode 0x600000A5C3#40 = .ok (.wrcfg 0xA5C3) ∧ decode 0x7020000000#40 = .ok (.drain 2) ∧
    demoNone.busy = none := by decide

theorem witness_ResetLeavesListedValues : demo = State.resetWith Config.exampleParams fun _ => 0xBEEF := rfl

theorem witness_ResetEventSparesTheChips : (demoBusy [.reset, .tick]).stim = .reset :: [.tick] := rfl

theorem witness_GammaStartsAtZeroAndRises : Config.exampleParams.Valid ∧ (0 : Level) ≤ 255 :=
  ⟨test_example_valid, by decide⟩

theorem witness_PlaneWordPacksThreeBits : 0 < 16 ∧ 15 < 16 := by decide

theorem witness_EncodeWritesItsSlotOnly :
    (0 : BitVec 8).toNat < demo.params.rowCount ∧ (4 : BitVec 8).toNat < demo.params.rowCount ∧
    ¬(wordAddr 4 15 0 ≤ 1263 ∧ 1263 < wordAddr 4 15 0 + 16) ∧ ¬(wordAddr 4 15 0 ≤ 1280 ∧ 1280 < wordAddr 4 15 0 + 16) := by
  decide

theorem witness_EncodedSlotDecodesToGamma : ∃ t, exec (.encode 4 15 1 2 4) demo = .next t := ⟨_, rfl⟩

theorem witness_EncodeIdempotentLocalCommuting :
    (∃ t u, exec (.encode 4 15 1 2 4) demo = .next t ∧ exec (.encode 4 15 1 2 4) t = .next u) ∧
    (∃ t t' u u', exec (.encode 4 15 1 2 4) demo = .next t ∧ exec (.encode 0 0 255 0 0) t = .next u ∧
      exec (.encode 0 0 255 0 0) demo = .next t' ∧ exec (.encode 4 15 1 2 4) t' = .next u') ∧
    ((0 : BitVec 8), (0 : BitVec 4)) ≠ (4, 15) ∧ (∀ a, fbRead demo.fb a &&& 0x8FFF#16 = 0) ∧
    (15 < 16 ∧ (4, 14) ≠ ((4 : BitVec 8).toNat, (15 : BitVec 4).toNat)) :=
  ⟨⟨_, _, rfl, rfl⟩, ⟨_, _, _, _, rfl, rfl, rfl, rfl⟩, by decide, fun _ => by simp [demo, State.resetWith], by decide⟩

theorem witness_RowBeyondRowCountRefused :
    demo.params.rowCount ≤ (5 : BitVec 8).toNat ∧ ¬demo.params.rowCount ≤ (4 : BitVec 8).toNat := by decide

/-- `demoNone` with an ENCODE 0, 0, 0, 0, 0 on the port that an event interrupts after `k` word writes. -/
def demoTear (k : Nat) : State := { demoNone with stim := [.cmdUntil 0x2000000000 k] }

theorem witness_InterruptedEncodeTearsExactly : ∀ k ∈ [0, 9, 16],
    (demoTear k).params.excl = .noExcl ∧ (demoTear k).busy = none ∧
    (demoTear k).stim = .cmdUntil 0x2000000000 k :: [] ∧ decode 0x2000000000#40 = .ok (.encode 0 0 0 0 0) ∧
    (0 : BitVec 8).toNat < (demoTear k).params.rowCount ∧ k ≤ 16 := by decide

theorem witness_InterruptedOperationEqualsWhole :
    demoNone.busy = none ∧ (∃ j, jobOf (.encode 4 15 1 2 4) demoNone = some j) ∧
    (∃ j, jobOf (.setColor 74 1 2 4) demoNone = some j) ∧ demo.busy = none ∧
    (∃ j, jobOf (.setColorAll 1 2 4) demo = some j) := ⟨rfl, ⟨_, rfl⟩, ⟨_, rfl⟩, rfl, ⟨_, rfl⟩⟩

/-- `demo` inside a strobe of `n` pulses. -/
def demoStrobe (n : Nat) : State := { demo with le := true, chips := { demo.chips with nle := n } }

/-- Within the precondition of 42_protocol_engine.md rule R132, at the ends of the counts' ranges, and without it. -/
theorem witness_LeLoExecutesTheStrobe :
    (∀ n ∈ [0, 1, 3, 5, 10, 13, 15],
      (demoStrobe n).le = true ∧ (demoStrobe n).dclk = false ∧ (classify (demoStrobe n).chips.nle).isSome = true) ∧
    (∀ n ∈ [6, 9, 12, 16],
      (demoStrobe n).le = true ∧ (demoStrobe n).dclk = false ∧ classify (demoStrobe n).chips.nle = none) ∧
    classify demo.chips.nle = some .dataLatch ∧ demo.le = false := by decide

theorem witness_DrainCompletes : (4 : BitVec 8).toNat < demo.params.rowCount := by decide

theorem witness_DrainShowsTheRow :
    (4 : BitVec 8).toNat < demo.params.rowCount ∧ ∀ c, (demo.chips.chip c).latched = [] :=
  ⟨by decide, fun c => by cases c <;> rfl⟩

theorem witness_RowSetWritesOneSwitch :
    (4 : BitVec 8).toNat < demo.params.rowCount ∧ demo.le = false ∧ demo.dclk = false ∧
    demo.rowEn.length = demo.params.rowCount ∧ 3 ≠ (4 : BitVec 8).toNat := by
  decide

theorem witness_TickRunsTheFourSteps :
    (demoBusy []).tickEn = true ∧ CursorOk (demoBusy []) ∧ (demoBusy []).rowEn.length = (demoBusy []).params.rowCount ∧
    prevRow (demoBusy []) ≠ (demoBusy []).cursor :=
  ⟨rfl, by unfold CursorOk; decide, rfl, by decide⟩

theorem witness_TickIgnoredBeforeInit : demo.tickEn = false := rfl

theorem witness_TicksCycleThroughTheRows :
    (demoBusy []).tickEn = true ∧ CursorOk (demoBusy []) ∧ Instr.drain 2 ≠ .tick ∧ Instr.drain 2 ≠ .init ∧
    ∃ t, exec (.drain 2) (demoBusy []) = .next t :=
  ⟨rfl, by unfold CursorOk; decide, by decide, by decide, exists_next (by decide +kernel)⟩

/-- Ticks enabled, one row only. -/
def demoOne : State :=
  { State.resetWith { Config.exampleParams with lastRow := 0 } (fun _ => 0xBEEF) with tickEn := true }

theorem witness_TicksCycleThroughTheRows_oneRow :
    demoOne.tickEn = true ∧ CursorOk demoOne ∧ ∃ t, ticks demoOne.params.rowCount demoOne = .next t :=
  ⟨rfl, by unfold CursorOk; decide, exists_next (by decide +kernel)⟩

/-- Row 0 lit, the cursor at 1. -/
theorem litRowOk_demoBusy (stim : List Stim) : LitRowOk (demoBusy stim) := by
  refine ⟨rfl, .inr fun r => ?_⟩
  rw [show prevRow (demoBusy stim) = 0 by
    simp [prevRow, demoBusy, demo, State.resetWith, Params.rowCount, Config.exampleParams]]
  rcases r with _ | _ | _ | _ | _ | r <;> simp [State.rowOn, demoBusy]

theorem chipsIdle_demoBusy (stim : List Stim) : ChipsIdle (demoBusy stim) :=
  ⟨rfl, fun c => by cases c <;> rfl⟩

theorem witness_AtMostTheActiveRowIsLit :
    LitRowOk (demoBusy [.tick]) ∧ CursorOk (demoBusy [.tick]) ∧ ∃ t, step (demoBusy [.tick]) = .next t :=
  ⟨litRowOk_demoBusy _, by unfold CursorOk; decide, exists_next (by decide +kernel)⟩

theorem witness_TickShowsTheCursorsRow :
    (demoBusy []).tickEn = true ∧ CursorOk (demoBusy []) ∧ LitRowOk (demoBusy []) ∧ ChipsIdle (demoBusy []) :=
  ⟨rfl, by unfold CursorOk; decide, litRowOk_demoBusy _, chipsIdle_demoBusy _⟩

theorem witness_SetColorEncodesTheLed :
    (demoInd true).params.ledPos[(74 : BitVec 12).toNat]? = some ⟨4, 10⟩ ∧
    (demoInd true).params.indicatorIndex = some (30 : BitVec 12).toNat ∧ (demoInd true).indicator = true := by
  decide +kernel

theorem witness_SetColorBeyondLedCountIgnored : demo.params.ledCount ≤ (75 : BitVec 12).toNat := by decide +kernel

theorem witness_SetColorAllEncodesEverySlot :
    (∃ i pos, (demoInd true).params.indicatorIndex = some i ∧ (demoInd true).params.ledPos[i]? = some pos ∧
      pos.row.toNat = 1 ∧ pos.col.toNat = 14) ∧ (demoInd true).indicator = true ∧ ¬(demoInd false).indicator = true ∧
    1 < (demoInd true).params.rowCount ∧ 14 < 16 :=
  ⟨⟨30, ⟨1, 14⟩, rfl, by decide +kernel, rfl, rfl⟩, rfl, by decide, by decide, by decide⟩

/-- A state with an operation in progress and a row lit. -/
theorem inv_demoBusy (stim : List Stim) : Inv (demoBusy stim) where
  params := test_example_valid
  fbWf := fbWf_nil
  fbInRange := by intro c hc; simp [demoBusy, demo, State.resetWith] at hc
  fbClean := by intro a; simp [demoBusy, demo, State.resetWith]
  cursor := by simp [CursorOk, demoBusy, demo, State.resetWith, Params.rowCount, Config.exampleParams]
  pins := ⟨rfl, rfl⟩
  litRow := litRowOk_demoBusy stim
  chips := chipsIdle_demoBusy stim
  job := by
    intro j hj
    cases hj
    have h : (demoBusy stim).params.rowCount = 5 := rfl
    refine ⟨by decide, ?_, by decide, fun _ => rfl, ?_, rfl⟩
    · rw [h]
      decide
    · rw [h]
      decide

theorem witness_StepKeepsTheInvariant : Inv (demoBusy [.runUntil 2]) ∧ ∃ t, step (demoBusy [.runUntil 2]) = .next t :=
  ⟨inv_demoBusy _, ⟨_, rfl⟩⟩

theorem witness_OperationInProgressEnds :
    Inv (demoBusy [.cmd 0x1000000000]) ∧ (demoBusy [.cmd 0x1000000000]).busy.isSome = true ∧
    (demoBusy [.cmd 0x1000000000]).stim = .cmd 0x1000000000 :: [] ∧
    Inv (demoBusy []) ∧ (demoBusy []).busy.isSome = true ∧ (demoBusy []).stim = [] :=
  ⟨inv_demoBusy _, rfl, rfl, inv_demoBusy _, rfl, rfl⟩

theorem witness_ResetMeetsTheInvariant : Config.exampleParams.Valid := test_example_valid

theorem witness_MaskTickKeepsSlotsWhole :
    Inv (demoBusy [.runUntil 2]) ∧ (demoBusy [.runUntil 2]).params.excl = .maskTick ∧
    AllSlotsWhole (demoBusy [.runUntil 2]) ∧ ∃ t, step (demoBusy [.runUntil 2]) = .next t :=
  ⟨inv_demoBusy _, rfl, fun _ _ _ _ => .inl fun _ _ => rfl, ⟨_, rfl⟩⟩

/-- With nothing in progress. -/
theorem inv_demoStim (stim : List Stim) : Inv (demoStim stim) where
  params := test_example_valid
  fbWf := fbWf_nil
  fbInRange := by intro c hc; simp [demoStim, demo, State.resetWith] at hc
  fbClean := by intro a; simp [demoStim, demo, State.resetWith]
  cursor := by simp [CursorOk, demoStim, demo, State.resetWith, Params.rowCount, Config.exampleParams]
  pins := ⟨rfl, rfl⟩
  litRow := by
    refine ⟨rfl, .inl fun r => ?_⟩
    rcases r with _ | _ | _ | _ | _ | r <;> rfl
  chips := ⟨rfl, fun c => by cases c <;> rfl⟩
  job := by
    intro j hj
    cases hj

theorem witness_StepStopsOnlyWhereTheSpecSays :
    (Inv (demoBusy [.tickInTick]) ∧ step (demoBusy [.tickInTick]) = .fault .overrun) ∧
    (Inv (demoStim [.cmd 0]) ∧ step (demoStim [.cmd 0]) = .refused .reservedOp) ∧
    (Inv (demoStim [.cmd 0x7050000000]) ∧ step (demoStim [.cmd 0x7050000000]) = .refused .outOfRange) ∧
    (Inv (demoStim [.cmdUntil 0x2050000000 3]) ∧ step (demoStim [.cmdUntil 0x2050000000 3]) = .refused .outOfRange) :=
  ⟨⟨inv_demoBusy _, rfl⟩, ⟨inv_demoStim _, rfl⟩, ⟨inv_demoStim _, rfl⟩, ⟨inv_demoStim _, rfl⟩⟩

theorem witness_OnlyEncodersWriteTheFrameBuffer :
    (∃ t, exec (.drain 4) { demo with fb := fbV15 } = .next t) ∧ FbWf fbV15 ∧
    (∀ row col r g b, Instr.drain 4 ≠ .encode row col r g b) ∧ (∀ n r g b, Instr.drain 4 ≠ .setColor n r g b) ∧
    (∀ r g b, Instr.drain 4 ≠ .setColorAll r g b) :=
  ⟨exists_next (by decide +kernel), by decide, by simp, by simp, by simp⟩

theorem witness_EveryRegisterHasItsWriters :
    (∃ t, exec .init { demo with cursor := 3 } = .next t ∧ t.cursor ≠ 3 ∧ t.tickEn ≠ demo.tickEn) ∧
    (∃ t, exec (.setColor 0 255 0 0) demo = .next t ∧ t.dirty ≠ demo.dirty) ∧
    (∃ t, exec (.rowSet 4 true) demo = .next t ∧ t.rowEn ≠ demo.rowEn) ∧
    (∃ t, exec (.doutWr 0x7000) demo = .next t ∧ t.dout ≠ demo.dout) ∧
    (∃ t, exec .pulse { demo with dclk := true } = .next t ∧ t.dclk ≠ true) ∧
    (∃ t, exec .leHi demo = .next t ∧ t.le ≠ demo.le) ∧
    (∃ t, exec .pwmReset demo = .next t ∧ t.chips ≠ demo.chips) ∧
    (∃ t, exec (.glookup 255) demo = .next t ∧ t.lookup ≠ demo.lookup) :=
  ⟨⟨_, rfl, by decide, by decide⟩, ⟨_, rfl, by decide⟩, ⟨_, rfl, by decide⟩, ⟨_, rfl, by decide⟩, ⟨_, rfl, by decide⟩,
    ⟨_, rfl, by decide⟩, ⟨_, rfl, by decide⟩, ⟨_, rfl, by decide +kernel⟩⟩

theorem witness_TheTraceOnlyGrows :
    (∃ t, exec (.wrcfg 0xA5C3) demo = .next t) ∧ ∃ t, exec (.glookup 255) demo = .next t := ⟨⟨_, rfl⟩, ⟨_, rfl⟩⟩

/-- The example set, and one whose enable bit lies above the gain field. -/
theorem witness_ConfigurationKeepsTheEnableBit :
    demo.params.Valid ∧
    ({ Config.exampleParams with cfgDefault := 0x8000, gainLsb := 9, enableBit := 15 } : Params).Valid :=
  have ⟨hzero, hrises, hcount, hrows, hindicator, _⟩ := test_example_valid
  ⟨test_example_valid, hzero, hrises, hcount, hrows, hindicator, by decide, by decide⟩

theorem witness_ReadAndEnableWriteConfig :
    (10 : Nat) ∈ strobeCounts none (wrcfgEvents 0xA5C3) ∧ 13 ∈ strobeCounts none (drainEvents fbV15 4) := by
  decide +kernel

theorem witness_DrainReadsItsOwnRowOnly :
    (∀ a, 3 * 256 ≤ a → a < 3 * 256 + 256 → fbRead fbV15 a = fbRead [] a) ∧ fbRead fbV15 1279 ≠ fbRead [] 1279 := by
  refine ⟨fun a _ h => ?_, by decide⟩
  simp only [fbV15, fbRead]
  repeat rw [if_neg (by omega)]

end Sys2Proof.Tests
end

section
/-! SUPPORT. The command port in a step (00_scope.md rule R9; 30_encoding.md rules R84, R85): what a step does with a command
word while no operation is in progress, and the obligation about it. -/

namespace Sys2Proof.Machine

/-- With no operation in progress, the word on the command port is taken and performed whole, whatever it decodes to. -/
theorem step_cmd_of_idle {s : State} {w : CommandWord} {rest : List Stim} (hbusy : s.busy = none)
    (hstim : s.stim = .cmd w :: rest) : step s = runCommand w { s with stim := rest } := by
  simp only [step, moveNext, hstim, hbusy]

theorem runCommand_of_decode_ok {w : CommandWord} {i : Instr} (hdec : decode w = .ok i) (s : State) :
    runCommand w s = exec i s := by
  simp only [runCommand, hdec]

/-- Settles O7: the step takes the word off the port, and performing it is executing the operation it decodes to. -/
theorem stepRunsCommand : Obligations.StepRunsCommand := by
  intro s w i rest hbusy hstim hdec
  calc step s = runCommand w { s with stim := rest } := step_cmd_of_idle hbusy hstim
    _ = exec i { s with stim := rest } := runCommand_of_decode_ok hdec _

end Sys2Proof.Machine
end

section
/-! SUPPORT. What an operation can write (10_state.md rules R22 to R39), said once for all 22: `written`. -/

namespace Sys2Proof.Machine

/-! ### Events that move no row switch -/

/-- No event of the list is a `ROW(r, v)`. -/
def NoRowEvent (es : List PinEvent) : Prop := ∀ r v, PinEvent.row r v ∉ es

theorem noRowEvent_append {xs ys : List PinEvent} (hx : NoRowEvent xs) (hy : NoRowEvent ys) : NoRowEvent (xs ++ ys) :=
  fun r v h => (List.mem_append.mp h).elim (hx r v) (hy r v)

theorem noRowEvent_wrcfg (value : Word) : NoRowEvent (wrcfgEvents value) := by
  refine noRowEvent_append (fun r v => by revert r v; simp [enableWriteEvents, pulseEvents, pulses]) fun r v => ?_
  simp only [configEvents, configPulse, pulseEvents, List.mem_append, List.mem_flatMap, not_or, not_exists]
  refine ⟨fun i => ?_, by simp⟩
  split <;> simp

theorem noRowEvent_glatch : NoRowEvent glatchEvents := by
  simp [NoRowEvent, glatchEvents, pulses, pulseEvents]

theorem noRowEvent_pwmrst : NoRowEvent pwmrstEvents := by
  simp [NoRowEvent, pwmrstEvents, pulses, pulseEvents]

theorem noRowEvent_drain (m : List FbCell) (row : Nat) : NoRowEvent (drainEvents m row) := by
  refine noRowEvent_append (noRowEvent_append (fun r v => ?_) noRowEvent_glatch) noRowEvent_pwmrst
  simp only [groupEvents, slotEvents, pulseEvents, List.mem_append, List.mem_flatMap, not_or, not_exists, not_and]
  refine fun g _ => ⟨fun i _ => ?_, by simp⟩
  split <;> simp

theorem emit_rowEn {e : PinEvent} {s t : State} (h : emit e s = .next t) (he : ∀ r v, e ≠ .row r v) :
    t.rowEn = s.rowEn := by
  cases e with
  | leLo =>
    simp only [emit] at h
    split at h <;> cases h
    rfl
  | row r v => exact absurd rfl (he r v)
  | data w => cases h; rfl
  | clkHi => cases h; rfl
  | clkLo => cases h; rfl
  | leHi => cases h; rfl

theorem emitAll_rowEn {es : List PinEvent} {s t : State} (h : emitAll es s = .next t) (hes : NoRowEvent es) :
    t.rowEn = s.rowEn := by
  induction es generalizing s with
  | nil => cases h; rfl
  | cons e es ih =>
    obtain ⟨u, hu, ht⟩ := andThen_eq_next.mp h
    have hrest : t.rowEn = u.rowEn := ih ht fun r v hm => hes r v (List.mem_cons_of_mem _ hm)
    exact hrest.trans (emit_rowEn hu fun r v he => hes r v (he ▸ List.mem_cons_self))

/-- What events without a `ROW(r, v)` can change: the pins, the trace, which grows, and the receivers. -/
theorem emitAll_eq {es : List PinEvent} {s t : State} (h : emitAll es s = .next t) (hes : NoRowEvent es) :
    t = { s with dout := t.dout, dclk := t.dclk, le := t.le, trace := es.reverse ++ s.trace, chips := t.chips } := by
  have hrow := emitAll_rowEn h hes
  obtain ⟨hparams, hfb, hcursor, hdirty, htickEn, hbusy, hlookup, hindicator, hstim, htrace, -⟩ := emitAll_next h
  cases t
  simp_all

/-! ### The row switches -/

/-- INIT's first line is its list of events (44_color_api.md rule R183). -/
theorem emitAll_rowsOff (s : State) :
    emitAll ((List.range s.params.rowCount).map fun r => .row r false) s = .next (allRowsOff s) := by
  have h (rs : List Nat) (s : State) :
      emitAll (rs.map fun r => .row r false) s = .next (rs.foldl (fun t r => setRow r false t) s) := by
    induction rs generalizing s with
    | nil => rfl
    | cons r rs ih => exact ih (setRow r false s)
  exact h _ s

/-! ### What each operation writes -/

/-- What an ENCODE that completes has done. -/
theorem encode_eq_next {row : BitVec 8} {col : BitVec 4} {r g b : Level} {s t : State} :
    exec (.encode row col r g b) s = .next t ↔
      row.toNat < s.params.rowCount ∧ t = encodeSlot row.toNat col.toNat (r, g, b) s := by
  simp only [exec, execEncode, checkRow_eq_next, Host.Outcome.next.injEq, @eq_comm State t]

/-- SET_COLOR of an LED there is not (44_color_api.md rule R180). -/
theorem execSetColor_of_none {index : BitVec 12} {s : State} (h : s.params.ledPos[index.toNat]? = none) (r g b : Level) :
    execSetColor index r g b s = .next s := by
  simp only [execSetColor, h]

/-- SET_COLOR of an LED there is (44_color_api.md rule R180). -/
theorem execSetColor_of_some {index : BitVec 12} {s : State} {pos : LedPos}
    (h : s.params.ledPos[index.toNat]? = some pos) (r g b : Level) :
    execSetColor index r g b s = .next (setDirty (encodeSlot pos.row.toNat pos.col.toNat
      (override s.params index.toNat (r, g, b) s.indicator) s)) := by
  simp only [execSetColor, h]

/-- What a SET_COLOR that completes, as each does, has done. -/
theorem setColor_eq_next {index : BitVec 12} {r g b : Level} {s t : State} (h : exec (.setColor index r g b) s = .next t) :
    t = s ∨ ∃ pos ∈ s.params.ledPos, ∃ c, t = setDirty (encodeSlot pos.row.toNat pos.col.toNat c s) := by
  rw [exec] at h
  cases hpos : s.params.ledPos[index.toNat]? with
  | none =>
    rw [execSetColor_of_none hpos] at h
    exact .inl (Host.Outcome.next.inj h).symm
  | some pos =>
    rw [execSetColor_of_some hpos] at h
    exact .inr ⟨pos, List.mem_of_getElem? hpos, _, (Host.Outcome.next.inj h).symm⟩

/-- What a SET_COLOR_ALL that completes, as each does, has done. -/
theorem setColorAll_eq_next {r g b : Level} {s t : State} : exec (.setColorAll r g b) s = .next t ↔
    t = setDirty (encodeSlots (r, g, b) s.indicator 0 (s.params.rowCount * 16) s) := by
  simp only [exec, execSetColorAll, Host.Outcome.next.injEq, @eq_comm State t]

/-- What a ROW_SET that completes has done. -/
theorem rowSet_eq_next {r : BitVec 8} {v : Bool} {s t : State} :
    exec (.rowSet r v) s = .next t ↔ r.toNat < s.params.rowCount ∧ t = setRow r.toNat v s := by
  simp only [exec, execRowSet, checkRow_eq_next, Host.Outcome.next.injEq, @eq_comm State t]

/-- What a DRAIN that completes has done. -/
theorem drainRow_eq_next {row : Nat} {s t : State} : drainRow row s = .next t ↔
    row < s.params.rowCount ∧ emitAll (drainEvents s.fb row) s = .next t := checkRow_eq_next

/-- `s` with each register that `i` can write taken from `u`. The flags are only ever set, and the trace only grows: events are
put before those it holds, newest first. -/
def written (i : Instr) (s u : State) : State :=
  match i with
  | .init =>
    { s with cursor := u.cursor, tickEn := true, dout := u.dout, dclk := u.dclk, le := u.le, rowEn := u.rowEn,
             trace := u.trace ++ s.trace, chips := u.chips }
  | .tick =>
    { s with cursor := u.cursor, dout := u.dout, dclk := u.dclk, le := u.le, rowEn := u.rowEn,
             trace := u.trace ++ s.trace, chips := u.chips }
  | .encode _ _ _ _ _ => { s with fb := u.fb }
  | .setColor _ _ _ _ => { s with fb := u.fb, dirty := s.dirty || u.dirty }
  | .setColorAll _ _ _ => { s with fb := u.fb, dirty := true }
  | .setGain _ => { s with dout := u.dout, dclk := u.dclk, le := u.le, trace := u.trace ++ s.trace, chips := u.chips }
  | .wrcfg _ => { s with dout := u.dout, dclk := u.dclk, le := u.le, trace := u.trace ++ s.trace, chips := u.chips }
  | .drain _ => { s with dout := u.dout, dclk := u.dclk, le := u.le, trace := u.trace ++ s.trace, chips := u.chips }
  | .glookup _ => { s with lookup := u.lookup }
  | .pulse => { s with dclk := u.dclk, trace := u.trace ++ s.trace, chips := u.chips }
  | .leHi => { s with le := u.le, trace := u.trace ++ s.trace, chips := u.chips }
  | .leLo => { s with le := u.le, trace := u.trace ++ s.trace, chips := u.chips }
  | .doutWr _ => { s with dout := u.dout, trace := u.trace ++ s.trace }
  | .glatch => { s with dclk := u.dclk, le := u.le, trace := u.trace ++ s.trace, chips := u.chips }
  | .pwmrst => { s with dclk := u.dclk, le := u.le, trace := u.trace ++ s.trace, chips := u.chips }
  | .rowSet _ _ => { s with rowEn := u.rowEn, trace := u.trace ++ s.trace }
  | .dataLatch _ => { s with chips := u.chips }
  | .globalLatch _ => { s with chips := u.chips }
  | .readCfg _ => { s with chips := u.chips }
  | .writeCfg _ => { s with chips := u.chips }
  | .pwmReset => { s with chips := u.chips }
  | .enWriteCfg _ => { s with chips := u.chips }

/-- The engine's operations write what events without a `ROW(r, v)` can change. -/
theorem exists_written_of_emitAll {es : List PinEvent} {s t : State} (h : emitAll es s = .next t) (hes : NoRowEvent es) :
    ∃ u : State, t = { s with dout := u.dout, dclk := u.dclk, le := u.le, trace := u.trace ++ s.trace, chips := u.chips } :=
  ⟨{ t with trace := es.reverse }, emitAll_eq h hes⟩

theorem init_written {s t : State} (h : execInit s = .next t) : ∃ u, t = written .init s u := by
  obtain ⟨u, hu, ht⟩ := andThen_eq_next.mp h
  cases ht
  have hconfig := emitAll_eq hu (noRowEvent_wrcfg _)
  have hrows : (allRowsOff s).trace = _ := (emitAll_next (emitAll_rowsOff s)).trace
  refine ⟨{ setTickEn u with trace := (wrcfgEvents s.params.cfgDefault).reverse ++
    ((List.range s.params.rowCount).map fun r => PinEvent.row r false).reverse }, ?_⟩
  rw [hconfig, allRowsOff_eq s, hrows]
  simp [written, setTickEn]

theorem tick_written {s t : State} (h : execTick s = .next t) : ∃ u, t = written .tick s u := by
  by_cases hen : s.tickEn = true
  · rw [execTick, takeTick_on _ hen] at h
    obtain ⟨u, hu, rfl⟩ := tickBody_eq_next.mp h
    have hdrain := emitAll_eq (drainRow_eq_next.mp hu).2 (noRowEvent_drain _ _)
    refine ⟨{ advanceCursor (setRow u.cursor true u) with
      trace := .row u.cursor true :: (drainEvents s.fb s.cursor).reverse ++ [.row (prevRow s) false] }, ?_⟩
    rw [hdrain]
    simp [written, advanceCursor, setRow, record]
  · rw [execTick, takeTick_off _ (by simpa using hen)] at h
    cases h
    exact ⟨{ s with trace := [] }, rfl⟩

/-- An operation that completes has written no more than `written` says. -/
theorem exec_written {i : Instr} {s t : State} (h : exec i s = .next t) : ∃ u, t = written i s u := by
  cases i with
  | init => exact init_written h
  | tick => exact tick_written h
  | encode row col r g b =>
    obtain ⟨-, rfl⟩ := encode_eq_next.mp h
    exact ⟨_, encodeSlot_eq _ _ _ _⟩
  | setColor index r g b =>
    obtain rfl | ⟨pos, -, c, rfl⟩ := setColor_eq_next h
    · exact ⟨t, by simp [written]⟩
    · refine ⟨setDirty (encodeSlot pos.row.toNat pos.col.toNat c s), ?_⟩
      rw [encodeSlot_eq]
      simp [written, setDirty]
  | setColorAll r g b =>
    obtain rfl := setColorAll_eq_next.mp h
    exact ⟨_, by rw [encodeSlots_eq]; rfl⟩
  | setGain gain =>
    exact exists_written_of_emitAll (es := wrcfgEvents (gainValue s.params gain)) h (noRowEvent_wrcfg _)
  | wrcfg value => exact exists_written_of_emitAll (es := wrcfgEvents value) h (noRowEvent_wrcfg _)
  | drain row =>
    obtain ⟨-, hevents⟩ := drainRow_eq_next (row := row.toNat).mp h
    exact exists_written_of_emitAll hevents (noRowEvent_drain _ _)
  | leLo =>
    simp only [exec, execLeLo, emit] at h
    split at h <;> cases h
    next c _ => exact ⟨{ s with le := false, trace := [.leLo], chips := s.chips.execute c }, rfl⟩
  | rowSet r v =>
    obtain ⟨-, rfl⟩ := rowSet_eq_next.mp h
    exact ⟨{ setRow r.toNat v s with trace := [.row r.toNat v] }, rfl⟩
  | glatch =>
    cases (emitAll_glatch s).symm.trans h
    exact ⟨{ s with dclk := false, le := false, trace := glatchEvents.reverse, chips := _ }, rfl⟩
  | pwmrst =>
    cases (emitAll_pwmrst s).symm.trans h
    exact ⟨{ s with dclk := false, le := false, trace := pwmrstEvents.reverse, chips := _ }, rfl⟩
  | pulse =>
    cases h
    exact ⟨{ s with dclk := false, trace := [.clkLo, .clkHi], chips := s.chips.clockIn s.dout s.le }, rfl⟩
  | leHi => cases h; exact ⟨{ s with le := true, trace := [.leHi], chips := s.chips.leRise }, rfl⟩
  | doutWr w => cases h; exact ⟨{ s with dout := w, trace := [.data w] }, rfl⟩
  | glookup v => cases h; exact ⟨{ s with lookup := s.params.gammaAt v }, rfl⟩
  | dataLatch n => cases h; exact ⟨{ s with chips := s.chips.dataLatch }, rfl⟩
  | globalLatch n => cases h; exact ⟨{ s with chips := s.chips.globalLatch }, rfl⟩
  | readCfg n => cases h; exact ⟨{ s with chips := s.chips.readCfg }, rfl⟩
  | writeCfg n => cases h; exact ⟨{ s with chips := s.chips.writeCfg }, rfl⟩
  | pwmReset => cases h; exact ⟨{ s with chips := s.chips.pwmReset }, rfl⟩
  | enWriteCfg n => cases h; exact ⟨{ s with chips := s.chips.enWriteCfg }, rfl⟩

theorem exec_params {i : Instr} {s t : State} (h : exec i s = .next t) : t.params = s.params := by
  obtain ⟨u, rfl⟩ := exec_written h
  cases i <;> rfl

theorem exec_busy {i : Instr} {s t : State} (h : exec i s = .next t) : t.busy = s.busy := by
  obtain ⟨u, rfl⟩ := exec_written h
  cases i <;> rfl

/-- The three operations that encode (10_state.md rule R22). -/
def Encodes (i : Instr) : Prop :=
  (∃ row col r g b, i = .encode row col r g b) ∨ (∃ n r g b, i = .setColor n r g b) ∨ ∃ r g b, i = .setColorAll r g b

theorem written_fb_of_not_encodes {i : Instr} (hi : ¬Encodes i) (s u : State) : (written i s u).fb = s.fb := by
  cases i
  case encode => exact absurd (.inl ⟨_, _, _, _, _, rfl⟩) hi
  case setColor => exact absurd (.inr (.inl ⟨_, _, _, _, rfl⟩)) hi
  case setColorAll => exact absurd (.inr (.inr ⟨_, _, _, rfl⟩)) hi
  all_goals rfl

/-- Settles O54: each clause is read off `written`, operation by operation. -/
theorem everyRegisterHasItsWriters : Obligations.EveryRegisterHasItsWriters := by
  intro i s t h
  obtain ⟨u, rfl⟩ := exec_written h
  cases i <;> simp +contextual [written]

/-- Settles O55: `written` puts events before those the trace holds, and for the operations named it writes no pin. -/
theorem theTraceOnlyGrows : Obligations.TheTraceOnlyGrows := by
  intro i s t h
  obtain ⟨u, rfl⟩ := exec_written h
  refine ⟨?_, ?_⟩
  · cases i <;> simp [written, State.pinTrace]
  · rintro (⟨_, _, _, _, _, rfl⟩ | ⟨_, _, _, _, rfl⟩ | ⟨_, _, _, rfl⟩ | ⟨_, rfl⟩) <;> exact ⟨rfl, rfl, rfl, rfl, rfl, rfl⟩

end Sys2Proof.Machine
end

section
/-! SUPPORT. What an operation does to the frame buffer (10_state.md rule R22), and what ENCODEs keep of it: the canonical form, the
range of the addresses, the unused bits. -/

namespace Sys2Proof.Machine

/-- The frame buffer after an operation: as it was, with one slot of the address space encoded, or with every slot encoded. -/
theorem exec_fb {i : Instr} {s t : State} (h : exec i s = .next t) :
    t.fb = s.fb ∨
    (∃ pos : LedPos, (s.params.Valid → pos.row.toNat < s.params.rowCount) ∧
      ∃ c, t.fb = (encodeSlot pos.row.toNat pos.col.toNat c s).fb) ∨
    ∃ c, t.fb = (encodeSlots c s.indicator 0 (s.params.rowCount * 16) s).fb := by
  by_cases hi : Encodes i
  · obtain ⟨row, col, r, g, b, rfl⟩ | ⟨n, r, g, b, rfl⟩ | ⟨r, g, b, rfl⟩ := hi
    · obtain ⟨hrow, rfl⟩ := encode_eq_next.mp h
      exact .inr (.inl ⟨⟨row, col⟩, fun _ => hrow, _, rfl⟩)
    · obtain rfl | ⟨pos, hpos, c, rfl⟩ := setColor_eq_next h
      · exact .inl rfl
      · exact .inr (.inl ⟨pos, fun ⟨_, _, _, hrows, _⟩ => hrows pos hpos, c, rfl⟩)
    · obtain rfl := setColorAll_eq_next.mp h
      exact .inr (.inr ⟨_, rfl⟩)
  · obtain ⟨u, rfl⟩ := exec_written h
    exact .inl (written_fb_of_not_encodes hi s u)

/-- Settles O53: `written` takes the frame buffer from elsewhere in the three operations only, and those keep the form word write by
word write. -/
theorem onlyEncodersWriteTheFrameBuffer : Obligations.OnlyEncodersWriteTheFrameBuffer := by
  intro i s t h
  refine ⟨fun hencode hsetColor hsetColorAll => ?_, fun hwf => ?_⟩
  · have hi : ¬Encodes i := by
      rintro (⟨row, col, r, g, b, hi⟩ | ⟨n, r, g, b, hi⟩ | ⟨r, g, b, hi⟩)
      · exact hencode row col r g b hi
      · exact hsetColor n r g b hi
      · exact hsetColorAll r g b hi
    obtain ⟨u, rfl⟩ := exec_written h
    exact written_fb_of_not_encodes hi s u
  · obtain hfb | ⟨pos, -, c, hfb⟩ | ⟨c, hfb⟩ := exec_fb h <;> rw [hfb]
    · exact hwf
    · exact encodeSlot_wf _ _ _ hwf
    · exact encodeSlots_wf _ _ _ _ hwf

/-! ### Words and addresses -/

/-- The unused bits of a plane's word are 0 (30_encoding.md rule R81). -/
theorem planeWord_clean (gr gg gb : Word) (p : Nat) : planeWord gr gg gb p &&& 0x8FFF#16 = 0 := by
  unfold planeWord bitOf
  cases gr.getLsbD (15 - p) <;> cases gg.getLsbD (15 - p) <;> cases gb.getLsbD (15 - p) <;> rfl

theorem wordAddr_lt {p : Params} {row col k : Nat} (hrow : row < p.rowCount) (hcol : col < 16) (hk : k < 16) :
    wordAddr row col k < p.rowCount * 256 := by
  unfold wordAddr
  omega

/-! ### What ENCODEs keep of the frame buffer -/

/-- The frame buffer's part of the invariant. -/
structure FbOk (p : Params) (m : List FbCell) : Prop where
  wf : FbWf m
  inRange : FbInRange p m
  clean : FbClean m

theorem fbOk_nil (p : Params) : FbOk p [] where
  wf := fbWf_nil
  inRange := fun _ hc => nomatch hc
  clean := fun _ => by rw [fbRead_nil]; rfl

theorem fbOk_write {p : Params} {m : List FbCell} (h : FbOk p m) {a : Nat} (ha : a < p.rowCount * 256) {v : Word}
    (hv : v &&& 0x8FFF#16 = 0) : FbOk p (fbWrite m a v) where
  wf := fbWrite_wf h.wf a v
  inRange := by
    intro c hc
    obtain rfl | hc := mem_fbWrite hc
    · exact ha
    · exact h.inRange c hc
  clean := by
    intro x
    rw [fbRead_write]
    split
    · exact hv
    · exact h.clean x

/-- Word writes of planes there are, in a slot there is. -/
theorem fbOk_writePlanes {p : Params} {e : Encoder} {n : Nat} {s : State} (hrow : e.row < p.rowCount) (hcol : e.col < 16)
    (hn : e.p + n ≤ 16) (h : FbOk p s.fb) : FbOk p (writePlanes e n s).fb := by
  induction n generalizing e s with
  | zero => exact h
  | succ n ih =>
    refine ih (e := { e with p := e.p + 1 }) hrow hcol (by change e.p + 1 + n ≤ 16; omega) ?_
    exact fbOk_write h (wordAddr_lt hrow hcol (by omega)) (planeWord_clean _ _ _ _)

theorem fbOk_encodeSlot {p : Params} {row col : Nat} (hrow : row < p.rowCount) (hcol : col < 16) (c : Color) {s : State}
    (h : FbOk p s.fb) : FbOk p (encodeSlot row col c s).fb :=
  fbOk_writePlanes hrow hcol (Nat.le_refl 16) h

theorem fbOk_encodeSlots {p : Params} {slot n : Nat} (hn : slot + n ≤ p.rowCount * 16) (c : Color) (ind : Bool) {s : State}
    (h : FbOk p s.fb) : FbOk p (encodeSlots c ind slot n s).fb := by
  induction n generalizing slot s with
  | zero => exact h
  | succ n ih => exact ih (by omega) (fbOk_encodeSlot (by omega) (by omega) _ h)

/-- An operation that completes keeps the frame buffer's part of the invariant. -/
theorem exec_keeps_fbOk {i : Instr} {s t : State} (hparams : s.params.Valid) (h : exec i s = .next t)
    (hfb : FbOk s.params s.fb) : FbOk s.params t.fb := by
  obtain h | ⟨pos, hrow, c, h⟩ | ⟨c, h⟩ := exec_fb h <;> rw [h]
  · exact hfb
  · exact fbOk_encodeSlot (hrow hparams) pos.col.isLt c hfb
  · exact fbOk_encodeSlots (by omega) c _ hfb

end Sys2Proof.Machine
end

section
/-! SUPPORT. The moves a step can make (00_scope.md rule R9; 60_exceptions.md rule R235), and that each keeps the invariant of
10_state.md rule R38. -/

namespace Sys2Proof.Machine

/-! ### The moves -/

/-- What a step that answers a next state can have done, the event being taken off the list already: the operation in progress went
on, a command began that an event interrupts, an operation was performed whole, the host set a level or cleared DIRTY, or the
reset event came. -/
inductive Move (s : State) : State → Prop where
  | goOn (k : Nat) : Move s (runFor k s)
  | start (i : Instr) (j : Job) (k : Nat) (hjob : jobOf i s = some j) : Move s (runFor k { s with busy := some j })
  | perform (i : Instr) (t : State) (hi : i = .tick ∨ ∃ w, decode w = .ok i) (h : exec i s = .next t) : Move s t
  | setLevels (indicator dirty : Bool) : Move s { s with indicator := indicator, dirty := dirty }
  | reset : Move s (resetEvent s)

theorem runCommand_move {w : CommandWord} {s t : State} (h : runCommand w s = .next t) : Move s t := by
  unfold runCommand at h
  split at h
  · next i hi => exact .perform i t (.inr ⟨w, hi⟩) h
  · cases h

theorem runCommandUntil_move {w : CommandWord} {k : Nat} {s t : State} (h : runCommandUntil w k s = .next t) :
    Move s t := by
  unfold runCommandUntil at h
  split at h
  · next i hi =>
    split at h
    · next j hj =>
      rw [← Host.Outcome.next.inj h]
      exact .start i j k hj
    · exact .perform i t (.inr ⟨w, hi⟩) h
  · cases h

theorem tickDuringTick_move {s t : State} (h : tickDuringTick s = .next t) : Move s t := by
  unfold tickDuringTick at h
  split at h <;> cases h
  exact .goOn 0

/-- Everything a step can do when it answers a next state. -/
theorem step_move {s t : State} (h : step s = .next t) : ∃ rest, Move { s with stim := rest } t := by
  have finish (h : (.next (finishJob s) : Result) = .next t) : ∃ rest, Move { s with stim := rest } t :=
    ⟨s.stim, Host.Outcome.next.inj h ▸ .goOn _⟩
  unfold step moveNext at h
  split at h
  · exact finish h
  · next w rest _ =>
    split at h
    · exact finish h
    · exact ⟨rest, runCommand_move h⟩
  · next w k rest _ =>
    split at h
    · exact finish h
    · exact ⟨rest, runCommandUntil_move h⟩
  · next k rest _ => exact ⟨rest, Host.Outcome.next.inj h ▸ .goOn k⟩
  · next rest _ => exact ⟨rest, .perform .tick t (.inl rfl) h⟩
  · next rest _ => exact ⟨rest, tickDuringTick_move h⟩
  · next level rest _ => exact ⟨rest, Host.Outcome.next.inj h ▸ .setLevels level s.dirty⟩
  · next rest _ => exact ⟨rest, Host.Outcome.next.inj h ▸ .setLevels s.indicator false⟩
  · next rest _ => exact ⟨rest, Host.Outcome.next.inj h ▸ .reset⟩

/-! ### The operation in progress -/

/-- A SET_COLOR_ALL at the start of a slot there is. -/
theorem jobOk_slot {p : Params} {slot : Nat} (hslot : slot < p.rowCount * 16) (r g b : Level) (ind : Bool) :
    JobOk p ⟨.setColorAll r g b ind slot, slotEncoder p (r, g, b) ind slot⟩ := by
  refine ⟨Nat.zero_lt_succ _, ?_, Nat.mod_lt _ (by decide), fun _ => rfl, hslot, rfl⟩
  change slot / 16 < p.rowCount
  omega

/-- Under `EXCL = none` an operation may be in progress at any plane. -/
theorem jobOk_plane {p : Params} {j : Job} (h : JobOk p j) (hexcl : p.excl = .noExcl) {q : Nat} (hq : q < 16) :
    JobOk p { j with enc := { j.enc with p := q } } := by
  obtain ⟨-, hrow, hcol, -, hkind⟩ := h
  refine ⟨hq, hrow, hcol, by simp [hexcl], ?_⟩
  obtain ⟨kind, e⟩ := j
  cases kind with
  | encode =>
    obtain ⟨hexcl, c, he⟩ := hkind
    exact ⟨hexcl, c, congrArg (fun e : Encoder => { e with p := q }) he⟩
  | setColor =>
    obtain ⟨hexcl, c, he⟩ := hkind
    exact ⟨hexcl, c, congrArg (fun e : Encoder => { e with p := q }) he⟩
  | setColorAll r g b ind slot =>
    obtain ⟨hslot, he⟩ := hkind
    exact ⟨hslot, congrArg (fun e : Encoder => { e with p := q }) he⟩

/-- The start of an operation that can be interrupted. -/
theorem jobOk_of_jobOf {i : Instr} {s : State} {j : Job} (hparams : s.params.Valid) (h : jobOf i s = some j) :
    JobOk s.params j := by
  cases i <;> simp only [jobOf, reduceCtorEq, Option.ite_none_right_eq_some, Option.map_eq_some_iff,
    Option.some.injEq] at h
  case encode row col r g b =>
    obtain ⟨⟨hexcl, hrow⟩, rfl⟩ := h
    exact ⟨Nat.zero_lt_succ _, hrow, col.isLt, fun _ => rfl, hexcl, _, rfl⟩
  case setColor index r g b =>
    obtain ⟨hexcl, pos, hpos, rfl⟩ := h
    obtain ⟨-, -, -, hrows, -⟩ := hparams
    exact ⟨Nat.zero_lt_succ _, hrows pos (List.mem_of_getElem? hpos), pos.col.isLt, fun _ => rfl, hexcl, _, rfl⟩
  case setColorAll r g b =>
    obtain rfl := h
    exact jobOk_slot (Nat.mul_pos (rowCount_pos _) (by decide)) r g b _

/-- A sub-step writes no plane beyond the last. -/
theorem subStepWrites_le {p : Params} {e : Encoder} (h : e.p < 16) : e.p + subStepWrites p e ≤ 16 := by
  unfold subStepWrites
  split <;> omega

theorem subStep_fb (j : Job) (s : State) :
    (subStep j s).fb = (writePlanes j.enc (subStepWrites s.params j.enc) s).fb := by
  unfold subStep
  simp only
  split
  · rfl
  · rw [endEncode_eq]

/-- After a sub-step the operation has ended, or it is again one the machine can be in the middle of. -/
theorem subStep_keeps_jobOk {j : Job} {s : State} (h : JobOk s.params j) :
    ∀ j' ∈ (subStep j s).busy, JobOk s.params j' := by
  intro j' hj'
  unfold subStep at hj'
  simp only at hj'
  split at hj'
  · next hlt =>
    have hexcl : s.params.excl = .noExcl := by
      cases hx : s.params.excl with
      | noExcl => rfl
      | maskTick => simp only [subStepWrites, hx] at hlt; omega
    cases hj'
    exact jobOk_plane h hexcl hlt
  · obtain ⟨kind, e⟩ := j
    cases kind with
    | encode => cases hj'
    | setColor => cases hj'
    | setColorAll r g b ind slot =>
      simp only [endEncode, writePlanes_params] at hj'
      split at hj'
      · next hslot =>
        cases hj'
        exact jobOk_slot hslot r g b ind
      · cases hj'

/-! ### The rows, the pins and the receivers -/

/-- The part of the invariant about the cursor, the pins, the row switches and the receivers. -/
structure PanelOk (s : State) : Prop where
  cursor : CursorOk s
  pins : PinsIdle s
  litRow : LitRowOk s
  chips : ChipsIdle s

/-- A row's switch after one has been written; a row beyond the last has none. -/
theorem rowOn_setRow (r : Nat) (v : Bool) (s : State) (x : Nat) :
    (setRow r v s).rowOn x = if x = r ∧ r < s.rowEn.length then v else s.rowOn x := by
  simp only [State.rowOn, setRow_rowEn, List.getD_eq_getElem?_getD, List.getElem?_set]
  by_cases hx : r = x
  · subst hx
    by_cases hr : r < s.rowEn.length <;> simp [hr]
  · simp [hx, Ne.symm hx]

/-- Switching a row off leaves every row off that was off. -/
theorem rowOn_setRow_false (r : Nat) (s : State) (x : Nat) :
    (setRow r false s).rowOn x = (s.rowOn x && decide (x ≠ r)) := by
  rw [rowOn_setRow]
  by_cases hx : x = r
  · subst hx
    by_cases hr : x < s.rowEn.length <;> simp [hr, State.rowOn]
  · simp [hx]

/-- The events of INIT's first line leave every row off, and as many switches as there were. -/
theorem rowsOff_allRowsOff {s : State} (h : s.rowEn.length = s.params.rowCount) :
    (allRowsOff s).rowEn.length = s.params.rowCount ∧ ∀ r, (allRowsOff s).rowOn r = false := by
  have hlength : (allRowsOff s).rowEn.length = s.rowEn.length := (emitAll_next (emitAll_rowsOff s)).rowEn_length
  have hoff (rs : List Nat) (s : State) (x : Nat) :
      (rs.foldl (fun t r => setRow r false t) s).rowOn x = (s.rowOn x && decide (x ∉ rs)) := by
    induction rs generalizing s with
    | nil => simp
    | cons r rs ih => rw [List.foldl_cons, ih, rowOn_setRow_false]; simp [Bool.and_assoc]
  refine ⟨hlength.trans h, fun r => ?_⟩
  by_cases hr : r < s.params.rowCount
  · rw [allRowsOff, hoff]
    simp [hr]
  · simp [State.rowOn, List.getElem?_eq_none (show (allRowsOff s).rowEn.length ≤ r by omega)]

/-- With every row off, or the one before the cursor on, TICK's first step leaves every row off. -/
theorem rowsOff_setRow_prevRow {s : State} (h : LitRowOk s) (r : Nat) : (setRow (prevRow s) false s).rowOn r = false := by
  obtain ⟨-, hoff | hprev⟩ := h <;> rw [rowOn_setRow_false]
  · simp [hoff r]
  · by_cases hr : r = prevRow s
    · simp [hr]
    · simp [hr, eq_false_of_ne_true (mt (hprev r).mp hr)]

theorem litRowOk_of_rowsOff {s : State} (hlength : s.rowEn.length = s.params.rowCount) (hoff : ∀ r, s.rowOn r = false) :
    LitRowOk s := ⟨hlength, .inl hoff⟩

/-- The row before the next one is the cursor's (43_row_scheduler.md rule R170). -/
theorem prevRow_advanceCursor {s : State} (h : CursorOk s) : prevRow (advanceCursor s) = s.cursor := by
  unfold CursorOk at h
  simp only [prevRow, advanceCursor_cursor, advanceCursor_params, nextRow]
  obtain hlt | heq : s.cursor + 1 < s.params.rowCount ∨ s.cursor + 1 = s.params.rowCount := by omega
  · rw [Nat.mod_eq_of_lt hlt, show s.cursor + 1 + s.params.rowCount - 1 = s.cursor + s.params.rowCount by omega,
      Nat.add_mod_right, Nat.mod_eq_of_lt h]
  · rw [heq, Nat.mod_self, Nat.zero_add, Nat.mod_eq_of_lt (by omega)]
    omega

/-- TICK's last two steps, from a state with every row off: the row before the new cursor is the one lit. -/
theorem litRowOk_advanceCursor {s : State} (hcursor : CursorOk s) (hlength : s.rowEn.length = s.params.rowCount)
    (hoff : ∀ r, s.rowOn r = false) : LitRowOk (advanceCursor (setRow s.cursor true s)) := by
  refine ⟨by simpa using hlength, .inr fun r => ?_⟩
  rw [prevRow_advanceCursor (s := setRow s.cursor true s) hcursor]
  change (setRow s.cursor true s).rowOn r = true ↔ r = s.cursor
  have hlt : s.cursor < s.rowEn.length := hlength ▸ hcursor
  simp [rowOn_setRow, hlt, hoff r]

/-- WRCFG's frames leave the pins low, and idle receivers idle (42_protocol_engine.md rule R155 (c)). -/
theorem idle_of_emitAll_wrcfg {value : Word} {s t : State} (hchips : ChipsIdle s)
    (h : emitAll (wrcfgEvents value) s = .next t) : PinsIdle t ∧ ChipsIdle t := by
  rw [wrcfgEvents, emitAll_append, emitAll_enableWrite, andThen_next, emitAll_config] at h
  obtain rfl := Host.Outcome.next.inj h
  refine ⟨⟨rfl, rfl⟩, by simp, fun c => ?_⟩
  have hlatched := hchips.2 c
  rw [writeCfg_chip]
  split <;> simp [hlatched]

/-- The last two frames of a drain leave the pins low and the receivers idle, whatever they held (rules R137, R138). -/
theorem idle_of_emitAll_drain {m : List FbCell} {row : Nat} {s t : State}
    (h : emitAll (drainEvents m row) s = .next t) : PinsIdle t ∧ ChipsIdle t := by
  obtain ⟨u, hu⟩ := emitAll_groups m row (List.range 16) s
  rw [drainEvents, emitAll_append, emitAll_append, hu, andThen_next, emitAll_glatch, andThen_next, emitAll_pwmrst] at h
  obtain rfl := Host.Outcome.next.inj h
  exact ⟨⟨rfl, rfl⟩, by simp, fun c => by simp⟩

/-- Events that move no row switch and leave pins and receivers idle keep the panel's part of the invariant. -/
theorem panelOk_of_emitAll {es : List PinEvent} {s t : State} (h : emitAll es s = .next t) (hes : NoRowEvent es)
    (hcursor : CursorOk s) (hlit : LitRowOk s) (hidle : PinsIdle t ∧ ChipsIdle t) : PanelOk t where
  pins := hidle.1
  chips := hidle.2
  cursor := by rw [emitAll_eq h hes]; exact hcursor
  litRow := by rw [emitAll_eq h hes]; exact hlit

theorem writeConfig_keeps_panelOk {value : Word} {s t : State} (h : writeConfig value s = .next t) (hs : PanelOk s) :
    PanelOk t :=
  panelOk_of_emitAll h (noRowEvent_wrcfg value) hs.cursor hs.litRow (idle_of_emitAll_wrcfg hs.chips h)

theorem drainRow_keeps_panelOk {row : Nat} {s t : State} (h : drainRow row s = .next t) (hs : PanelOk s) : PanelOk t :=
  have ⟨_, hevents⟩ := drainRow_eq_next.mp h
  panelOk_of_emitAll hevents (noRowEvent_drain _ _) hs.cursor hs.litRow (idle_of_emitAll_drain hevents)

theorem execInit_keeps_panelOk {s t : State} (h : execInit s = .next t) (hs : PanelOk s) : PanelOk t := by
  obtain ⟨u, hu, ht⟩ := andThen_eq_next.mp h
  obtain rfl := Host.Outcome.next.inj ht
  obtain ⟨hlength, hoff⟩ := rowsOff_allRowsOff hs.litRow.1
  have hrows := allRowsOff_eq s
  have hstart : PanelOk { allRowsOff s with cursor := 0 } := by
    refine ⟨rowCount_pos _, ?_, litRowOk_of_rowsOff ?_ hoff, ?_⟩
    · rw [hrows]; exact hs.pins
    · rw [hrows] at hlength ⊢; exact hlength
    · rw [hrows]; exact hs.chips
  obtain ⟨hcursor, hpins, hlit, hchips⟩ := writeConfig_keeps_panelOk hu hstart
  exact ⟨hcursor, hpins, hlit, hchips⟩

theorem tickBody_keeps_panelOk {s t : State} (h : tickBody s = .next t) (hs : PanelOk s) : PanelOk t := by
  obtain ⟨u, hu, rfl⟩ := tickBody_eq_next.mp h
  have hlength : (setRow (prevRow s) false s).rowEn.length = s.params.rowCount := by simpa using hs.litRow.1
  have hoff := rowsOff_setRow_prevRow hs.litRow
  have hstart : PanelOk (setRow (prevRow s) false s) := ⟨hs.cursor, hs.pins, litRowOk_of_rowsOff hlength hoff, hs.chips⟩
  obtain ⟨hcursor, hpins, -, hchips⟩ := drainRow_keeps_panelOk hu hstart
  have hdrain := emitAll_eq (drainRow_eq_next.mp hu).2 (noRowEvent_drain _ _)
  refine ⟨nextRow_lt _, hpins, litRowOk_advanceCursor hcursor ?_ fun r => ?_, hchips⟩
  · rw [hdrain]; exact hlength
  · rw [hdrain]; exact hoff r

/-! ### The operations of the host and the timer -/

/-- The operations a command word asks for (30_encoding.md rule R85). -/
theorem decode_cases {w : CommandWord} {i : Instr} (h : decode w = .ok i) :
    i = .init ∨ (∃ gain, i = .setGain gain) ∨ (∃ value, i = .wrcfg value) ∨ (∃ row, i = .drain row) ∨ Encodes i := by
  unfold decode at h
  split at h <;> cases h <;> simp [Encodes]

/-- The encoding operations write none of the registers of the panel. -/
theorem panelOk_written_of_encodes {i : Instr} (hi : Encodes i) {s u : State} (h : PanelOk s) : PanelOk (written i s u) := by
  obtain ⟨hcursor, hpins, hlit, hchips⟩ := h
  obtain ⟨row, col, r, g, b, rfl⟩ | ⟨n, r, g, b, rfl⟩ | ⟨r, g, b, rfl⟩ := hi <;> exact ⟨hcursor, hpins, hlit, hchips⟩

/-- Every operation of the host or the timer keeps the panel's part of the invariant. -/
theorem exec_keeps_panelOk {i : Instr} {s t : State} (hi : i = .tick ∨ ∃ w, decode w = .ok i) (h : exec i s = .next t)
    (hs : PanelOk s) : PanelOk t := by
  obtain rfl | ⟨w, hw⟩ := hi
  · rw [exec, execTick] at h
    by_cases hen : s.tickEn = true
    · rw [takeTick_on _ hen] at h
      exact tickBody_keeps_panelOk h hs
    · rw [takeTick_off _ (by simpa using hen)] at h
      exact Host.Outcome.next.inj h ▸ hs
  · obtain rfl | ⟨gain, rfl⟩ | ⟨value, rfl⟩ | ⟨row, rfl⟩ | hencodes := decode_cases hw
    · exact execInit_keeps_panelOk h hs
    · rw [exec, execSetGain] at h
      exact writeConfig_keeps_panelOk h hs
    · rw [exec, execWrcfg] at h
      exact writeConfig_keeps_panelOk h hs
    · rw [exec, execDrain] at h
      exact drainRow_keeps_panelOk h hs
    · obtain ⟨u, rfl⟩ := exec_written h
      exact panelOk_written_of_encodes hencodes hs

/-! ### The invariant -/

/-- The invariant in its four parts. -/
theorem inv_iff {s : State} : Inv s ↔
    s.params.Valid ∧ FbOk s.params s.fb ∧ PanelOk s ∧ ∀ j ∈ s.busy, JobOk s.params j :=
  ⟨fun h => ⟨h.params, ⟨h.fbWf, h.fbInRange, h.fbClean⟩, ⟨h.cursor, h.pins, h.litRow, h.chips⟩, h.job⟩,
    fun ⟨hparams, hfb, hpanel, hjob⟩ => ⟨hparams, hfb.wf, hfb.inRange, hfb.clean, hpanel.cursor, hpanel.pins,
      hpanel.litRow, hpanel.chips, hjob⟩⟩

/-- What the environment does next is no part of the invariant. -/
theorem Inv.withStim {s : State} (h : Inv s) (rest : List Stim) : Inv { s with stim := rest } :=
  ⟨h.params, h.fbWf, h.fbInRange, h.fbClean, h.cursor, h.pins, h.litRow, h.chips, h.job⟩

/-- An operation that the machine can be in the middle of begins. -/
theorem Inv.withJob {s : State} (h : Inv s) {j : Job} (hj : JobOk s.params j) : Inv { s with busy := some j } :=
  ⟨h.params, h.fbWf, h.fbInRange, h.fbClean, h.cursor, h.pins, h.litRow, h.chips, fun _ hmem => Option.some.inj hmem ▸ hj⟩

/-- Right after reset no row has its switch on. -/
theorem rowOn_resetWith (p : Params) (cfg : Channel → Word) (r : Nat) : (State.resetWith p cfg).rowOn r = false := by
  simp only [State.rowOn, State.resetWith, List.getD_eq_getElem?_getD, List.getElem?_replicate]
  split <;> rfl

/-- A reset state, whatever idle receivers it finds, and whatever the environment does next. -/
theorem inv_reset {p : Params} (hp : p.Valid) (cfg : Channel → Word) {s : State} (hchips : ChipsIdle s) :
    Inv { State.resetWith p cfg with chips := s.chips, indicator := s.indicator, stim := s.stim } := by
  refine inv_iff.mpr ⟨hp, fbOk_nil p, ⟨rowCount_pos p, ⟨rfl, rfl⟩, ?_, hchips⟩, fun j hj => nomatch hj⟩
  exact litRowOk_of_rowsOff List.length_replicate (rowOn_resetWith p cfg)

theorem exec_keeps_inv {i : Instr} {s t : State} (hi : i = .tick ∨ ∃ w, decode w = .ok i) (h : exec i s = .next t)
    (hs : Inv s) : Inv t := by
  obtain ⟨hparams, hfb, hpanel, hjob⟩ := inv_iff.mp hs
  rw [inv_iff, exec_params h, exec_busy h]
  exact ⟨hparams, exec_keeps_fbOk hparams h hfb, exec_keeps_panelOk hi h hpanel, hjob⟩

theorem subStep_keeps_inv {j : Job} {s : State} (hj : JobOk s.params j) (hs : Inv s) : Inv (subStep j s) := by
  obtain ⟨hparams, hfb, ⟨hcursor, hpins, hlit, hchips⟩, -⟩ := inv_iff.mp hs
  have hjob := subStep_keeps_jobOk hj
  have hfb' := subStep_fb j s
  obtain ⟨hp, hrow, hcol, -⟩ := hj
  rw [subStep_eq, inv_iff]
  refine ⟨hparams, ?_, ⟨hcursor, hpins, hlit, hchips⟩, hjob⟩
  rw [hfb']
  exact fbOk_writePlanes hrow hcol (subStepWrites_le hp) hfb

theorem runFor_keeps_inv (k : Nat) {s : State} (hs : Inv s) : Inv (runFor k s) := by
  induction k generalizing s with
  | zero => exact hs
  | succ k ih =>
    unfold runFor
    split
    · exact hs
    · next j hj => exact ih (subStep_keeps_inv (hs.job j hj) hs)

theorem Move.keeps_inv {s t : State} (h : Move s t) (hs : Inv s) : Inv t := by
  cases h with
  | goOn k => exact runFor_keeps_inv k hs
  | start i j k hjob => exact runFor_keeps_inv k (hs.withJob (jobOk_of_jobOf hs.params hjob))
  | perform i t hi h => exact exec_keeps_inv hi h hs
  | setLevels indicator dirty =>
    exact ⟨hs.params, hs.fbWf, hs.fbInRange, hs.fbClean, hs.cursor, hs.pins, hs.litRow, hs.chips, hs.job⟩
  | reset => exact inv_reset hs.params _ hs.chips

/-- Settles O49: a step is a move, and every move keeps the invariant. -/
theorem stepKeepsTheInvariant : Obligations.StepKeepsTheInvariant := by
  intro s t hs h
  obtain ⟨rest, hmove⟩ := step_move h
  exact hmove.keeps_inv (hs.withStim rest)

end Sys2Proof.Machine
end

section
/-! SUPPORT. The reset state (10_state.md rules R34, R37) and the slots under `mask_tick` (rule R38 (I-e)). -/

namespace Sys2Proof.Machine

/-! ### The reset state -/

/-- Settles O12: each value is the one the reset state is built with. -/
theorem resetLeavesListedValues : Obligations.ResetLeavesListedValues := by
  rintro p cfg s rfl
  have hchips (c : Channel) : (Chips.start cfg).chip c = Chip.start (cfg c) := by cases c <;> rfl
  refine ⟨rfl, rowOn_resetWith p cfg, List.length_replicate, rfl, rfl, fun _ _ _ => rfl, rfl, rfl, rfl, rfl, rfl, rfl,
    fun c => ?_, rfl, rfl, rfl⟩
  change ((Chips.start cfg).chip c).sr = 0 ∧ ((Chips.start cfg).chip c).cfg = cfg c ∧
    ((Chips.start cfg).chip c).latched = [] ∧ ((Chips.start cfg).chip c).active = []
  rw [hchips]
  exact ⟨rfl, rfl, rfl, rfl⟩

/-- 40_gamma_rom.md rule R112 (a). -/
theorem gammaLin_toNat (i : Nat) (h : i < 256) : Config.gammaLin[i].toNat = i * 257 := by
  simp only [Config.gammaLin, Vector.getElem_mk, List.getElem_toArray, List.getElem_map, List.getElem_range,
    BitVec.toNat_ofNat]
  omega

/-- The example parameters meet the constraints of 00_scope.md rule R8. -/
theorem exampleParams_valid : Config.exampleParams.Valid := by
  refine ⟨rfl, fun i => ?_, by decide, by decide, by decide, by decide, by decide⟩
  change Config.gammaLin[i.val] ≤ Config.gammaLin[i.val + 1]
  rw [BitVec.le_def, gammaLin_toNat, gammaLin_toNat]
  omega

/-- The machine's own parameters are valid, whatever they are. -/
theorem machine_valid : Config.machine.Valid := by
  unfold Config.machine
  split
  · split
    · next hp => exact hp
    · exact exampleParams_valid
  · exact exampleParams_valid

theorem inv_resetWith {p : Params} (hp : p.Valid) (cfg : Channel → Word) : Inv (State.resetWith p cfg) :=
  inv_reset hp cfg (s := State.resetWith p cfg) ⟨rfl, fun c => by cases c <;> rfl⟩

/-- Settles O50: the reset state of every valid parameter set meets the invariant, and the machine's own is valid. -/
theorem resetMeetsTheInvariant : Obligations.ResetMeetsTheInvariant :=
  ⟨fun _ cfg hp => inv_resetWith hp cfg, inv_resetWith machine_valid Config.chipConfig⟩

/-! ### Whole slots -/

/-- Whole slots are a matter of the parameters and the frame buffer only. -/
theorem allSlotsWhole_congr {s t : State} (hparams : t.params = s.params) (hfb : t.fb = s.fb) (h : AllSlotsWhole s) :
    AllSlotsWhole t := by
  unfold AllSlotsWhole
  rw [hparams, hfb]
  exact h

/-- A word of the encoded slot after a whole ENCODE (41_bit_plane_encoder.md rule R120). -/
theorem fbRead_encodeSlot_same {row col k : Nat} (c : Color) (s : State) (hk : k < 16) :
    fbRead (encodeSlot row col c s).fb (wordAddr row col k) =
      planeWord (s.params.gammaAt c.1) (s.params.gammaAt c.2.1) (s.params.gammaAt c.2.2) k := by
  rw [encodeSlot, writePlanes_read, wordAddr_eq row col k]
  simp only [startEncoder_row, startEncoder_col, startEncoder_p, Nat.add_sub_cancel_left]
  exact if_pos (by omega)

/-- A word of another slot after a whole ENCODE: slots never overlap, because each begins at a multiple of 16 (20_memory.md rule
R51). -/
theorem fbRead_encodeSlot_other {row col row' col' k : Nat} (c : Color) (s : State) (hk : k < 16)
    (h : wordAddr row' col' 0 ≠ wordAddr row col 0) :
    fbRead (encodeSlot row col c s).fb (wordAddr row' col' k) = fbRead s.fb (wordAddr row' col' k) := by
  rw [encodeSlot, writePlanes_read]
  refine if_neg ?_
  simp only [wordAddr, startEncoder_row, startEncoder_col, startEncoder_p] at h ⊢
  omega

/-- A whole ENCODE leaves a slot its colour's encoding if it is the one encoded, and as it was if it is another. -/
theorem slotWhole_encodeSlot {row col row' col' : Nat} (c : Color) {s : State}
    (h : SlotWhole s.params s.fb row' col') : SlotWhole s.params (encodeSlot row col c s).fb row' col' := by
  by_cases hslot : wordAddr row' col' 0 = wordAddr row col 0
  · refine .inr ⟨c.1, c.2.1, c.2.2, fun k hk => ?_⟩
    rw [wordAddr_eq, hslot, ← wordAddr_eq, fbRead_encodeSlot_same c s hk]
  · obtain hzero | ⟨r, g, b, hcolor⟩ := h
    · exact .inl fun k hk => (fbRead_encodeSlot_other c s hk hslot).trans (hzero k hk)
    · exact .inr ⟨r, g, b, fun k hk => (fbRead_encodeSlot_other c s hk hslot).trans (hcolor k hk)⟩

theorem allSlotsWhole_encodeSlot (row col : Nat) (c : Color) {s : State} (h : AllSlotsWhole s) :
    AllSlotsWhole (encodeSlot row col c s) := by
  intro row' hrow col' hcol
  rw [encodeSlot_params] at hrow ⊢
  exact slotWhole_encodeSlot c (h row' hrow col' hcol)

theorem allSlotsWhole_encodeSlots (c : Color) (ind : Bool) (slot n : Nat) {s : State} (h : AllSlotsWhole s) :
    AllSlotsWhole (encodeSlots c ind slot n s) := by
  induction n generalizing slot s with
  | zero => exact h
  | succ n ih => exact ih _ (allSlotsWhole_encodeSlot _ _ _ h)

theorem exec_keeps_slotsWhole {i : Instr} {s t : State} (h : exec i s = .next t) (hs : AllSlotsWhole s) :
    AllSlotsWhole t := by
  have hparams := exec_params h
  obtain hfb | ⟨pos, -, c, hfb⟩ | ⟨c, hfb⟩ := exec_fb h
  · exact allSlotsWhole_congr hparams hfb hs
  · exact allSlotsWhole_congr (by rw [encodeSlot_params, hparams]) hfb (allSlotsWhole_encodeSlot _ _ c hs)
  · exact allSlotsWhole_congr (by rw [encodeSlots_eq, hparams]) hfb (allSlotsWhole_encodeSlots c _ _ _ hs)

/-- Under `mask_tick` a sub-step writes what one whole ENCODE writes (20_memory.md rule R62). -/
theorem subStep_fb_of_maskTick {j : Job} {s : State} (hexcl : s.params.excl = .maskTick) (hj : JobOk s.params j) :
    ∃ row col c, (subStep j s).fb = (encodeSlot row col c s).fb := by
  obtain ⟨kind, e⟩ := j
  obtain ⟨-, -, -, hplane, hkind⟩ := hj
  replace hplane := hplane hexcl
  rw [subStep_fb, subStepWrites, hexcl]
  cases kind with
  | encode => exact absurd (hkind.1.symm.trans hexcl) (by decide)
  | setColor => exact absurd (hkind.1.symm.trans hexcl) (by decide)
  | setColorAll r g b ind slot =>
    obtain ⟨-, he⟩ := hkind
    simp only at hplane he
    refine ⟨slot / 16, slot % 16, slotColor s.params (slot / 16) (slot % 16) (r, g, b) ind, ?_⟩
    rw [hplane] at he
    rw [he]
    rfl

theorem runFor_keeps_slotsWhole (k : Nat) {s : State} (hinv : Inv s) (hexcl : s.params.excl = .maskTick)
    (hs : AllSlotsWhole s) : AllSlotsWhole (runFor k s) := by
  induction k generalizing s with
  | zero => exact hs
  | succ k ih =>
    unfold runFor
    split
    · exact hs
    · next j hj =>
      have hparams : (subStep j s).params = s.params := by rw [subStep_eq]
      have hjob := hinv.job j hj
      obtain ⟨row, col, c, hfb⟩ := subStep_fb_of_maskTick hexcl hjob
      refine ih (subStep_keeps_inv hjob hinv) (hparams ▸ hexcl) ?_
      exact allSlotsWhole_congr (by rw [encodeSlot_params, hparams]) hfb (allSlotsWhole_encodeSlot row col c hs)

theorem Move.keeps_slotsWhole {s t : State} (h : Move s t) (hinv : Inv s) (hexcl : s.params.excl = .maskTick)
    (hs : AllSlotsWhole s) : AllSlotsWhole t := by
  cases h with
  | goOn k => exact runFor_keeps_slotsWhole k hinv hexcl hs
  | start i j k hjob => exact runFor_keeps_slotsWhole k (hinv.withJob (jobOk_of_jobOf hinv.params hjob)) hexcl hs
  | perform i t hi h => exact exec_keeps_slotsWhole h hs
  | setLevels indicator dirty => exact hs
  | reset => exact fun _ _ _ _ => .inl fun _ _ => rfl

/-- Settles O51: under `mask_tick` every move writes whole ENCODEs. -/
theorem maskTickKeepsSlotsWhole : Obligations.MaskTickKeepsSlotsWhole := by
  intro s t hinv hexcl hs h
  obtain ⟨rest, hmove⟩ := step_move h
  exact hmove.keeps_slotsWhole (hinv.withStim rest) hexcl hs

end Sys2Proof.Machine
end

section
/-! SUPPORT. No operation reads DIRTY (10_state.md rule R24; 20_memory.md rule R66). -/

namespace Sys2Proof.Machine

/-- `s` with DIRTY at the level `d`. -/
def setDirtyTo (d : Bool) (s : State) : State := { s with dirty := d }

@[simp] theorem setDirtyTo_params (d : Bool) (s : State) : (setDirtyTo d s).params = s.params := rfl

@[simp] theorem setDirtyTo_indicator (d : Bool) (s : State) : (setDirtyTo d s).indicator = s.indicator := rfl

@[simp] theorem setDirtyTo_setDirty_setDirtyTo (d d' : Bool) (s : State) :
    setDirtyTo d' (setDirty (setDirtyTo d s)) = setDirtyTo d' (setDirty s) := rfl

/-- The operation neither reads nor writes DIRTY: it ends in the same way at every level, and leaves that level. -/
def CarriesDirty (f : State → Result) : Prop :=
  ∀ d s, f (setDirtyTo d s) = andThen (f s) fun t => .next (setDirtyTo d t)

theorem carriesDirty_next {f : State → State} (h : ∀ d s, f (setDirtyTo d s) = setDirtyTo d (f s)) :
    CarriesDirty fun s => .next (f s) :=
  fun d s => congrArg _ (h d s)

theorem carriesDirty_andThen {f g : State → Result} (hf : CarriesDirty f) (hg : CarriesDirty g) :
    CarriesDirty fun s => andThen (f s) g := by
  intro d s
  change andThen (f (setDirtyTo d s)) g = andThen (andThen (f s) g) _
  rw [hf d s, andThen_assoc, andThen_assoc]
  exact congrArg _ (funext fun t => hg d t)

theorem carriesDirty_emit (e : PinEvent) : CarriesDirty (emit e) := by
  intro d s
  cases e with
  | leLo =>
    simp only [emit, setDirtyTo]
    split <;> rfl
  | data w => rfl
  | clkHi => rfl
  | clkLo => rfl
  | leHi => rfl
  | row r v => rfl

theorem carriesDirty_emitAll (es : List PinEvent) : CarriesDirty (emitAll es) := by
  induction es with
  | nil => exact fun _ _ => rfl
  | cons e es ih => exact carriesDirty_andThen (carriesDirty_emit e) ih

theorem carriesDirty_checkRow {f : State → Result} (row : Nat) (hf : CarriesDirty f) :
    CarriesDirty fun s => checkRow row s f := by
  intro d s
  change checkRow row (setDirtyTo d s) f = andThen (checkRow row s f) _
  by_cases hrow : row < s.params.rowCount
  · rw [checkRow_lt _ hrow, checkRow_lt (s := setDirtyTo d s) _ hrow, hf d s]
  · rw [checkRow_ge _ hrow, checkRow_ge (s := setDirtyTo d s) _ hrow, andThen_refused]

theorem carriesDirty_drainRow (row : Nat) : CarriesDirty (drainRow row) :=
  carriesDirty_checkRow row fun d s => carriesDirty_emitAll (drainEvents s.fb row) d s

theorem carriesDirty_tickBody : CarriesDirty tickBody := by
  intro d s
  have hlast : CarriesDirty fun t => .next (advanceCursor (setRow t.cursor true t)) := carriesDirty_next fun _ _ => rfl
  exact carriesDirty_andThen (carriesDirty_drainRow s.cursor) hlast d (setRow (prevRow s) false s)

theorem carriesDirty_tick : CarriesDirty execTick := by
  intro d s
  by_cases hen : s.tickEn = true
  · rw [execTick, execTick, takeTick_on (s := setDirtyTo d s) _ hen, takeTick_on _ hen, carriesDirty_tickBody]
  · replace hen := eq_false_of_ne_true hen
    rw [execTick, execTick, takeTick_off (s := setDirtyTo d s) _ hen, takeTick_off _ hen, andThen_next]

theorem allRowsOff_setDirtyTo (d : Bool) (s : State) : allRowsOff (setDirtyTo d s) = setDirtyTo d (allRowsOff s) := by
  have h := carriesDirty_emitAll ((List.range s.params.rowCount).map fun r => .row r false) d s
  rw [emitAll_rowsOff s, andThen_next] at h
  exact Host.Outcome.next.inj ((emitAll_rowsOff (setDirtyTo d s)).symm.trans h)

theorem carriesDirty_init : CarriesDirty execInit := by
  intro d s
  have hlast : CarriesDirty fun t => .next (setTickEn t) := carriesDirty_next fun _ _ => rfl
  rw [execInit, allRowsOff_setDirtyTo]
  exact carriesDirty_andThen (carriesDirty_emitAll (wrcfgEvents s.params.cfgDefault)) hlast d
    { allRowsOff s with cursor := 0 }

theorem writePlanes_setDirtyTo (e : Encoder) (n : Nat) (d : Bool) (s : State) :
    writePlanes e n (setDirtyTo d s) = setDirtyTo d (writePlanes e n s) := by
  induction n generalizing e s with
  | zero => rfl
  | succ n ih => exact ih _ (writePlane e s)

theorem encodeSlot_setDirtyTo (row col : Nat) (c : Color) (d : Bool) (s : State) :
    encodeSlot row col c (setDirtyTo d s) = setDirtyTo d (encodeSlot row col c s) := writePlanes_setDirtyTo _ _ _ _

theorem encodeSlots_setDirtyTo (c : Color) (ind : Bool) (slot n : Nat) (d : Bool) (s : State) :
    encodeSlots c ind slot n (setDirtyTo d s) = setDirtyTo d (encodeSlots c ind slot n s) := by
  induction n generalizing slot s with
  | zero => rfl
  | succ n ih =>
    rw [encodeSlots, encodeSlot_setDirtyTo]
    exact ih _ _

/-! ### Every operation -/

/-- But for DIRTY itself the operation ends in the same way at every level of it. -/
def IgnoresDirty (f : State → Result) : Prop :=
  ∀ d s, andThen (f (setDirtyTo d s)) (fun t => .next (setDirtyTo false t)) =
    andThen (f s) (fun t => .next (setDirtyTo false t))

theorem CarriesDirty.ignoresDirty {f : State → Result} (hf : CarriesDirty f) : IgnoresDirty f := by
  intro d s
  rw [hf d s, andThen_assoc]
  rfl

theorem ignoresDirty_setColor (index : BitVec 12) (r g b : Level) : IgnoresDirty (execSetColor index r g b) := by
  intro d s
  cases hpos : s.params.ledPos[index.toNat]? with
  | none => rw [execSetColor_of_none hpos, execSetColor_of_none (s := setDirtyTo d s) hpos]; rfl
  | some pos =>
    rw [execSetColor_of_some hpos, execSetColor_of_some (s := setDirtyTo d s) hpos, andThen_next, andThen_next,
      setDirtyTo_params, setDirtyTo_indicator, encodeSlot_setDirtyTo, setDirtyTo_setDirty_setDirtyTo]

theorem ignoresDirty_setColorAll (r g b : Level) : IgnoresDirty (execSetColorAll r g b) := by
  intro d s
  simp only [execSetColorAll, andThen_next, setDirtyTo_params, setDirtyTo_indicator, encodeSlots_setDirtyTo,
    setDirtyTo_setDirty_setDirtyTo]

/-- The Color API's two operations set DIRTY, every other one carries it through. -/
theorem ignoresDirty_exec (i : Instr) : IgnoresDirty (exec i) := by
  cases i with
  | setColor index r g b => exact ignoresDirty_setColor index r g b
  | setColorAll r g b => exact ignoresDirty_setColorAll r g b
  | init => exact carriesDirty_init.ignoresDirty
  | tick => exact carriesDirty_tick.ignoresDirty
  | encode row col r g b =>
    exact (carriesDirty_checkRow row.toNat (carriesDirty_next (encodeSlot_setDirtyTo _ _ _))).ignoresDirty
  | rowSet r v => exact (carriesDirty_checkRow r.toNat (carriesDirty_next fun _ _ => rfl)).ignoresDirty
  | setGain gain =>
    have h : CarriesDirty (execSetGain gain) := fun d s => carriesDirty_emitAll (wrcfgEvents (gainValue s.params gain)) d s
    exact h.ignoresDirty
  | wrcfg value => exact (carriesDirty_emitAll (wrcfgEvents value)).ignoresDirty
  | drain row => exact (carriesDirty_drainRow row.toNat).ignoresDirty
  | pulse => exact (carriesDirty_emitAll pulseEvents).ignoresDirty
  | glatch => exact (carriesDirty_emitAll glatchEvents).ignoresDirty
  | pwmrst => exact (carriesDirty_emitAll pwmrstEvents).ignoresDirty
  | leHi => exact (carriesDirty_emit .leHi).ignoresDirty
  | leLo => exact (carriesDirty_emit .leLo).ignoresDirty
  | doutWr w => exact (carriesDirty_emit (.data w)).ignoresDirty
  | glookup v => exact (carriesDirty_next fun _ _ => rfl).ignoresDirty
  | dataLatch n => exact (carriesDirty_next fun _ _ => rfl).ignoresDirty
  | globalLatch n => exact (carriesDirty_next fun _ _ => rfl).ignoresDirty
  | readCfg n => exact (carriesDirty_next fun _ _ => rfl).ignoresDirty
  | writeCfg n => exact (carriesDirty_next fun _ _ => rfl).ignoresDirty
  | pwmReset => exact (carriesDirty_next fun _ _ => rfl).ignoresDirty
  | enWriteCfg n => exact (carriesDirty_next fun _ _ => rfl).ignoresDirty

/-- Settles O56: no operation reads DIRTY, and what it writes to it depends on nothing it held. -/
theorem nothingReadsDirty : Obligations.NothingReadsDirty :=
  fun i s d => ignoresDirty_exec i d s

end Sys2Proof.Machine
end

section
/-! SUPPORT. The rows that operations refuse (20_memory.md rule R54; 43_row_scheduler.md rule R171). -/

namespace Sys2Proof.Machine

/-- A checked operation that does not itself refuse its row is refused exactly where the row is not there. -/
theorem checkRow_eq_outOfRange {row : Nat} {s : State} {f : State → Result} (hf : f s ≠ .refused .outOfRange) :
    checkRow row s f = .refused .outOfRange ↔ s.params.rowCount ≤ row := by
  by_cases h : row < s.params.rowCount
  · simp [checkRow_lt f h, hf, h]
  · simp [checkRow_ge f h, Nat.le_of_not_lt h]

/-- Settles O20: each of the three is its row check around a body that never refuses. -/
theorem rowBeyondRowCountRefused : Obligations.RowBeyondRowCountRefused := by
  intro s row col r g b v
  simp only [exec, execEncode, execDrain, drainRow, execRowSet]
  refine ⟨checkRow_eq_outOfRange ?_, checkRow_eq_outOfRange ?_, checkRow_eq_outOfRange ?_⟩
  · simp
  · exact emitAll_not_refused _ _ _
  · simp

end Sys2Proof.Machine
end

section
/-! SUPPORT. What an event of the environment does inside a host operation (20_memory.md rules R61 to R63, R68;
41_bit_plane_encoder.md rules R121, R122): an atomic operation holds it off, an ENCODE under `EXCL = none` is torn by it. -/

namespace Sys2Proof.Machine

/-! ### An event inside an operation -/

/-- With no operation in progress, the word on the command port is taken and begun. -/
theorem step_cmdUntil_of_idle {s : State} {w : CommandWord} {k : Nat} {rest : List Stim} (hbusy : s.busy = none)
    (hstim : s.stim = .cmdUntil w k :: rest) : step s = runCommandUntil w k { s with stim := rest } := by
  simp only [step, moveNext, hstim, hbusy]

theorem runCommandUntil_of_atomic {w : CommandWord} {i : Instr} {s : State} (hdec : decode w = .ok i)
    (hjob : jobOf i s = none) (k : Nat) : runCommandUntil w k s = exec i s := by
  simp only [runCommandUntil, hdec, hjob]

theorem runCommandUntil_of_job {w : CommandWord} {i : Instr} {s : State} {j : Job} (hdec : decode w = .ok i)
    (hjob : jobOf i s = some j) (k : Nat) : runCommandUntil w k s = .next (runFor k { s with busy := some j }) := by
  simp only [runCommandUntil, hdec, hjob]

/-- Only an operation that encodes can be interrupted, and under `mask_tick` only SET_COLOR_ALL (20_memory.md rules R61 to
R63). -/
theorem encodes_of_jobOf {i : Instr} {s : State} {j : Job} (h : jobOf i s = some j) :
    Encodes i ∧ (s.params.excl = .noExcl ∨ ∃ r g b, i = .setColorAll r g b) := by
  cases i <;> simp only [jobOf, reduceCtorEq, Option.ite_none_right_eq_some] at h
  case encode =>
    obtain ⟨⟨hexcl, -⟩, -⟩ := h
    exact ⟨.inl ⟨_, _, _, _, _, rfl⟩, .inl hexcl⟩
  case setColor =>
    obtain ⟨hexcl, -⟩ := h
    exact ⟨.inr (.inl ⟨_, _, _, _, rfl⟩), .inl hexcl⟩
  case setColorAll => exact ⟨.inr (.inr ⟨_, _, _, rfl⟩), .inr ⟨_, _, _, rfl⟩⟩

/-- Settles O11: an atomic operation has no middle, so the step performs it whole. -/
theorem atomicOperationsHoldEventsOff : Obligations.AtomicOperationsHoldEventsOff := by
  intro s w i k rest hbusy hstim hdec hall hatomic
  have hjob : jobOf i { s with stim := rest } = none := by
    refine Option.eq_none_iff_forall_ne_some.mpr fun j hj => ?_
    obtain ⟨hencodes, hexcl | ⟨r, g, b, hi⟩⟩ := encodes_of_jobOf hj
    · obtain hmask | rfl | ⟨_, rfl⟩ | ⟨_, rfl⟩ | ⟨_, rfl⟩ := hatomic
      · exact absurd (hmask.symm.trans hexcl) (by decide)
      all_goals simp [Encodes] at hencodes
    · exact hall r g b hi
  rw [step_cmdUntil_of_idle hbusy hstim, runCommandUntil_of_atomic hdec hjob]

/-! ### The word writes of an interrupted operation -/

/-- One sub-step and then `k` more. -/
theorem runFor_succ (k : Nat) (j : Job) (s : State) :
    runFor (k + 1) { s with busy := some j } = runFor k (subStep j { s with busy := some j }) := rfl

/-- Under `EXCL = none` a sub-step that leaves planes to write is one word write (20_memory.md rule R62). -/
theorem subStep_of_noExcl {kind : JobKind} {e : Encoder} {s : State} (hexcl : s.params.excl = .noExcl) (hp : e.p + 1 < 16) :
    subStep ⟨kind, e⟩ { s with busy := some ⟨kind, e⟩ } =
      { writePlane e s with busy := some ⟨kind, { e with p := e.p + 1 }⟩ } := by
  simp only [subStep, subStepWrites, hexcl]
  exact if_pos hp

/-- Under `EXCL = none` the sub-step that writes the last plane ends the ENCODE. -/
theorem subStep_last_of_noExcl {kind : JobKind} {e : Encoder} {s : State} (hexcl : s.params.excl = .noExcl) (hp : e.p = 15) :
    subStep ⟨kind, e⟩ { s with busy := some ⟨kind, e⟩ } =
      endEncode kind { writePlane e s with busy := some ⟨kind, e⟩ } := by
  simp only [subStep, subStepWrites, hexcl, hp]
  rfl

/-- Under `EXCL = none`, sub-steps of an ENCODE are as many word writes, and with the sixteenth it has ended
(41_bit_plane_encoder.md rule R121). -/
theorem runFor_encode_of_noExcl {e : Encoder} {k : Nat} {s : State} (hexcl : s.params.excl = .noExcl) (he : e.p < 16)
    (hk : e.p + k ≤ 16) : runFor k { s with busy := some ⟨.encode, e⟩ } =
      { writePlanes e k s with
        busy := if e.p + k < 16 then some ⟨.encode, { e with p := e.p + k }⟩ else none } := by
  induction k generalizing e s with
  | zero => simp [runFor, writePlanes, he]
  | succ k ih =>
    rw [runFor_succ, writePlanes]
    by_cases hp : e.p + 1 < 16
    · rw [subStep_of_noExcl hexcl hp]
      refine (ih (e := { e with p := e.p + 1 }) (s := writePlane e s) hexcl hp (by change e.p + 1 + k ≤ 16; omega)).trans ?_
      simp only [Nat.add_assoc, Nat.add_comm 1 k]
    · obtain ⟨hlast, rfl⟩ : e.p = 15 ∧ k = 0 := by omega
      rw [subStep_last_of_noExcl hexcl hlast]
      simp [endEncode, runFor, writePlanes, hlast]

/-- An ENCODE of a row there is, met by an event after `k` word writes under `EXCL = none`, is in progress where planes are
left. -/
theorem step_encodeUntil {s : State} {w : CommandWord} {row : BitVec 8} {col : BitVec 4} {r g b : Level} {k : Nat}
    {rest : List Stim} (hexcl : s.params.excl = .noExcl) (hbusy : s.busy = none) (hstim : s.stim = .cmdUntil w k :: rest)
    (hdec : decode w = .ok (.encode row col r g b)) (hrow : row.toNat < s.params.rowCount) (hk : k ≤ 16) :
    ∃ busy : Option Job, (busy.isSome = true ↔ k < 16) ∧ step s = .next
      { writePlanes (startEncoder s.params row.toNat col.toNat (r, g, b)) k { s with stim := rest } with busy := busy } := by
  have hjob : jobOf (.encode row col r g b) { s with stim := rest } =
      some ⟨.encode, startEncoder s.params row.toNat col.toNat (r, g, b)⟩ := if_pos ⟨hexcl, hrow⟩
  rw [step_cmdUntil_of_idle hbusy hstim, runCommandUntil_of_job hdec hjob]
  refine ⟨_, ?_, congrArg _ (runFor_encode_of_noExcl hexcl (by simp) (by simpa using hk))⟩
  simp

/-! ### What the word writes leave in the slot and outside it -/

/-- After `k` word writes the planes below `k` are new and the others old (20_memory.md rule R68). -/
theorem word_writePlanes_start (row col : Nat) (c : Color) (k p : Nat) (s : State) :
    (writePlanes (startEncoder s.params row col c) k s).word row col p =
      if p < k then planeWord (s.params.gammaAt c.1) (s.params.gammaAt c.2.1) (s.params.gammaAt c.2.2) p
      else s.word row col p := by
  rw [State.word, writePlanes_read, wordAddr_eq row col p]
  simp only [startEncoder_row, startEncoder_col, startEncoder_p, Nat.add_sub_cancel_left]
  exact if_congr (by omega) rfl (by rw [State.word, wordAddr_eq row col p])

/-- Word writes leave every word outside the slot as it was. -/
theorem fbRead_writePlanes_start_outside {row col k a : Nat} (c : Color) (s : State) (hk : k ≤ 16)
    (ha : ¬(wordAddr row col 0 ≤ a ∧ a < wordAddr row col 0 + 16)) :
    fbRead (writePlanes (startEncoder s.params row col c) k s).fb a = fbRead s.fb a := by
  rw [writePlanes_read]
  refine if_neg ?_
  simp only [startEncoder_row, startEncoder_col, startEncoder_p]
  omega

/-! ### The slot decoder -/

/-- The slot decoder shifts one bit of each plane in, plane 0 first (41_bit_plane_encoder.md rule R122). -/
theorem dec_eq_shiftAll (s : State) (row col c : Nat) :
    s.dec row col c = shiftAll 0 ((List.range 16).map fun p => (s.word row col p).getLsbD c) := by
  simp only [State.dec, shiftAll, List.foldl_map]

/-- So plane `15 - n` holds bit `n` of what the slot decodes to. -/
theorem dec_getLsbD (s : State) (row col c : Nat) {n : Nat} (hn : n < 16) :
    (s.dec row col c).getLsbD n = (s.word row col (15 - n)).getLsbD c := by
  rw [dec_eq_shiftAll, shiftAll_bit _ _ _ hn]
  simp [hn, show 15 - n < 16 by omega]

/-- A slot whose planes below `k` are new and whose others are old decodes to the top `k` bits of the new value above the low bits
of the old one (20_memory.md rule R68). -/
theorem dec_getLsbD_of_torn {s t : State} {row col k : Nat} {new : Nat → Word}
    (h : ∀ p < 16, t.word row col p = if p < k then new p else s.word row col p) (c : Nat) {n : Nat} (hn : n < 16) :
    (t.dec row col c).getLsbD n =
      if 16 - k ≤ n then (new (15 - n)).getLsbD c else (s.dec row col c).getLsbD n := by
  rw [dec_getLsbD _ _ _ _ hn, dec_getLsbD _ _ _ _ hn, h _ (by omega), apply_ite (BitVec.getLsbD · c)]
  exact if_congr (by omega) rfl rfl

/-- Bits 14, 13 and 12 of a plane's word hold bit `15 - p` of the three gamma values (30_encoding.md rules R81, R86). -/
theorem planeWord_getLsbD_of_mem {gr gg gb v : Word} {bit : Nat} (h : (bit, v) ∈ [(14, gr), (13, gg), (12, gb)]) (p : Nat) :
    (planeWord gr gg gb p).getLsbD bit = v.getLsbD (15 - p) := by
  simp only [List.mem_cons, List.not_mem_nil, or_false, Prod.mk.injEq] at h
  obtain ⟨rfl, rfl⟩ | ⟨rfl, rfl⟩ | ⟨rfl, rfl⟩ := h <;> simp [planeWord, bitOf]

/-- Settles O21: the step makes `k` word writes of the ENCODE, and the slot decoder reads them plane by plane. -/
theorem interruptedEncodeTearsExactly : Obligations.InterruptedEncodeTearsExactly := by
  intro s w row col r g b k rest hexcl hbusy hstim hdec hrow hk
  obtain ⟨busy, hsome, hstep⟩ := step_encodeUntil hexcl hbusy hstim hdec hrow hk
  have hword (p : Nat) := word_writePlanes_start row.toNat col.toNat (r, g, b) k p { s with stim := rest }
  refine ⟨_, hstep, by rw [writePlanes_eq], hsome, fun p _ => hword p,
    fun a ha => fbRead_writePlanes_start_outside (r, g, b) { s with stim := rest } hk ha, fun bit v hv n hn => ?_⟩
  have hgamma : (bit, s.params.gammaAt v) ∈
      [(14, s.params.gammaAt r), (13, s.params.gammaAt g), (12, s.params.gammaAt b)] :=
    List.mem_map_of_mem (f := Prod.map id s.params.gammaAt) hv
  refine (dec_getLsbD_of_torn (s := s) (fun p _ => hword p) bit hn).trans ?_
  simp only [planeWord_getLsbD_of_mem hgamma, show 15 - (15 - n) = n by omega]

end Sys2Proof.Machine
end

section
/-! SUPPORT. The two codes of an operation (30_encoding.md rules R83 to R85, R89): fields placed in a command word and read from it,
encoding and decoding as each other's inverses, the bits that are ignored and the codes that are refused. -/

namespace Sys2Proof.Machine

/-! ### Fields of a command word -/

/-- A field placed at bit `n` is read back from there. -/
@[simp] theorem extractLsb'_place_self {k : Nat} (n : Nat) (x : BitVec k) (h : n + k ≤ 40) :
    (place n x).extractLsb' n k = x := by
  ext i hi
  simp [place, show n + i < 40 by omega, hi]

/-- A field placed at bit `n` leaves the fields below it 0. -/
@[simp] theorem extractLsb'_place_below {k : Nat} (n m l : Nat) (x : BitVec k) (h : m + l ≤ n) :
    (place n x).extractLsb' m l = 0#l := by
  ext i hi
  simp [place, show m + i < n by omega]

/-- A field placed at bit `n` leaves the fields above it 0. -/
@[simp] theorem extractLsb'_place_above {k : Nat} (n m l : Nat) (x : BitVec k) (h : n + k ≤ m) :
    (place n x).extractLsb' m l = 0#l := by
  ext i hi
  simp [place, BitVec.getLsbD_of_ge x (m + i - n) (by omega)]

/-- A field put back where it was read is the word with every other bit cleared. -/
theorem place_extractLsb' (n k : Nat) (w : CommandWord) :
    place n (w.extractLsb' n k) = w &&& place n (BitVec.allOnes k) := by
  ext i hi
  by_cases h : i < n
  · simp [place, h]
  · simp [place, h, show n + (i - n) = i by omega, BitVec.getLsbD_eq_getElem hi, Bool.and_comm]

theorem place_of_opField {w : CommandWord} {op : Nat} (h : (opField w).toNat = op) :
    place 36 (BitVec.ofNat 4 op) = w &&& place 36 (BitVec.allOnes 4) := by
  rw [← h, BitVec.ofNat_toNat, BitVec.setWidth_eq]
  exact place_extractLsb' 36 4 w

/-- Every format uses the opcode (30_encoding.md rule R84). -/
theorem opField_usedBits (w : CommandWord) : opField (usedBits w) = BitVec.allOnes 4 := by
  unfold usedBits
  split <;> rfl

theorem opField_and_usedBits (v w : CommandWord) : opField (v &&& usedBits w) = opField v := by
  rw [opField, BitVec.extractLsb'_and, ← opField, ← opField, opField_usedBits, BitVec.and_allOnes]

/-- The opcode alone says which bits are used (30_encoding.md rule R84). -/
theorem usedBits_congr {v w : CommandWord} (h : opField v = opField w) : usedBits v = usedBits w := by
  simp only [usedBits, h]

/-! ### Decoding a command word -/

theorem decode_of_encode {i : Instr} {w : CommandWord} (h : encode i = some (.command w)) : decode w = .ok i := by
  cases i <;> cases h
  all_goals
    simp [decode, opField, rowField, colField, indexField, rField, gField, bField, valueField, gainField,
      BitVec.extractLsb'_or]

/-- A word that decodes is its operation's fields put back where they were read, so its used bits are the operation's code. -/
theorem encode_of_decode {w : CommandWord} {i : Instr} (h : decode w = .ok i) :
    encode i = some (.command (w &&& usedBits w)) := by
  unfold decode at h
  split at h <;> cases h
  all_goals
    next hop =>
    simp only [encode, place_of_opField hop, rowField, colField, indexField, rField, gField, bField, valueField, gainField,
      place_extractLsb', ← BitVec.and_or_distrib_left, usedBits, hop]
    rfl

/-- The only error is the reserved opcode, and which opcodes are reserved (30_encoding.md rule R89 (b)). -/
theorem decode_eq_error_iff {w : CommandWord} {e : DecodeError} :
    decode w = .error e ↔ e = .reservedOp (opField w) ∧ ((opField w).toNat = 0 ∨ 8 ≤ (opField w).toNat) := by
  unfold decode
  split
  case h_8 h1 h2 h3 h4 h5 h6 h7 =>
    simp only [imp_false] at h1 h2 h3 h4 h5 h6 h7
    have hop : (opField w).toNat = 0 ∨ 8 ≤ (opField w).toNat := by omega
    simp [hop, @eq_comm _ e]
  all_goals simp [*]

/-- Decoding reads used bits only (30_encoding.md rule R89 (c)). -/
theorem decode_and_usedBits (w : CommandWord) : decode (w &&& usedBits w) = decode w := by
  cases h : decode w with
  | ok i => exact decode_of_encode (encode_of_decode h)
  | error e => rw [decode_eq_error_iff, opField_and_usedBits]; exact decode_eq_error_iff.mp h

/-- No command word stands for a strobe command, whose pulse count is all that well-formedness asks about. -/
theorem wellFormed_of_decode {w : CommandWord} {i : Instr} (h : decode w = .ok i) : i.wellFormed = true := by
  unfold decode at h
  split at h <;> cases h <;> rfl

/-! ### Decoding a pulse count -/

/-- A strobe of 16 pulses or more is `UNSPEC` (30_encoding.md rules R83, R89 (a)). -/
theorem classify_of_sixteen_le {n : Nat} (h : 16 ≤ n) : classify n = none := by
  obtain ⟨k, rfl⟩ := Nat.exists_eq_add_of_le' h
  rfl

theorem decodeStrobe_of_encode {i : Instr} {n : Nat} (hwf : i.wellFormed = true) (h : encode i = some (.strobe n)) :
    decodeStrobe n = .ok i := by
  cases i <;> cases h
  case pwmReset => rfl
  case dataLatch | globalLatch | readCfg | writeCfg | enWriteCfg =>
    simp only [Instr.wellFormed, Bool.or_eq_true, beq_iff_eq] at hwf
    obtain rfl | rfl := hwf <;> rfl

theorem encode_of_decodeStrobe {n : Nat} {i : Instr} (h : decodeStrobe n = .ok i) :
    encode i = some (.strobe n) ∧ i.wellFormed = true := by
  have hn : n < 16 := by
    by_contra hge
    rw [decodeStrobe, classify_of_sixteen_le (by omega)] at h
    cases h
  interval_cases n <;> cases h <;> exact ⟨rfl, rfl⟩

/-! ### A reserved opcode at the port -/

theorem runCommand_of_decode_error {w : CommandWord} {e : DecodeError} (hdec : decode w = .error e) (s : State) :
    runCommand w s = .refused .reservedOp := by
  simp only [runCommand, hdec]

theorem runCommandUntil_of_decode_error {w : CommandWord} {e : DecodeError} (hdec : decode w = .error e) (k : Nat)
    (s : State) : runCommandUntil w k s = .refused .reservedOp := by
  simp only [runCommandUntil, hdec]

/-! ### The obligations -/

/-- Settles O1: command words and pulse counts each read back what was encoded. -/
theorem decodeEncodeRoundTrip : Obligations.DecodeEncodeRoundTrip := by
  intro i c hwf h
  cases c with
  | command w => exact decode_of_encode h
  | strobe n => exact decodeStrobe_of_encode hwf h

/-- Settles O2: a command word decodes to an operation made of its own fields, a pulse count to one that carries it. -/
theorem decodedCodeReencodes : Obligations.DecodedCodeReencodes :=
  ⟨fun _ _ h => ⟨encode_of_decode h, wellFormed_of_decode h⟩, fun _ _ h => encode_of_decodeStrobe h⟩

/-- Settles O3: both words decode as their used bits do, and these are the same. -/
theorem unusedFieldsIgnored : Obligations.UnusedFieldsIgnored := by
  intro w w' h
  have hop : opField w = opField w' := by
    rw [← opField_and_usedBits w w, h, opField_and_usedBits]
  calc decode w = decode (w &&& usedBits w) := (decode_and_usedBits w).symm
    _ = decode (w' &&& usedBits w') := by rw [h, usedBits_congr hop]
    _ = decode w' := decode_and_usedBits w'

/-- Settles O4: a reserved opcode does not decode, and both ways of taking a command refuse what does not decode. -/
theorem reservedOpcodesRefused : Obligations.ReservedOpcodesRefused := by
  refine ⟨fun w => by simp [decode_eq_error_iff], fun s w k rest hbusy hop hstim => ?_⟩
  have hdec : decode w = .error (.reservedOp (opField w)) := decode_eq_error_iff.mpr ⟨rfl, hop⟩
  obtain hstim | hstim := hstim
  · rw [step_cmd_of_idle hbusy hstim, runCommand_of_decode_error hdec]
  · rw [step_cmdUntil_of_idle hbusy hstim, runCommandUntil_of_decode_error hdec]

/-- Settles O5: ten fixed codes, evaluated. -/
theorem sampleWordsDecode : Obligations.SampleWordsDecode := by
  unfold Obligations.SampleWordsDecode
  decide

end Sys2Proof.Machine
end

section
/-! SUPPORT. What goes over the wires (30_encoding.md rules R81, R83, R86, R87): the command a strobe's count selects, the bits of a
plane's word, the words of WRCFG. -/

namespace Sys2Proof.Machine

/-! ### An open strobe -/

/-- Where LE is high, an event that leaves LE alone completes, and the receivers count it if it is a `C+` (42_protocol_engine.md
rule R151). -/
theorem emit_counts {e : PinEvent} {s : State} (hle : s.le = true) (hhi : e ≠ .leHi) (hlo : e ≠ .leLo) :
    ∃ t, emit e s = .next t ∧ t.le = true ∧ t.chips.nle = s.chips.nle + [e].count .clkHi := by
  cases e with
  | leHi => exact absurd rfl hhi
  | leLo => exact absurd rfl hlo
  | clkHi => exact ⟨_, rfl, hle, by simp [hle]⟩
  | data w => exact ⟨_, rfl, hle, rfl⟩
  | clkLo => exact ⟨_, rfl, hle, rfl⟩
  | row r v => exact ⟨_, rfl, hle, rfl⟩

/-- So while a strobe is open the receivers count its `C+` events, and those only. -/
theorem emitAll_counts {es : List PinEvent} {s : State} (hle : s.le = true) (hhi : .leHi ∉ es) (hlo : .leLo ∉ es) :
    ∃ t, emitAll es s = .next t ∧ t.chips.nle = s.chips.nle + es.count .clkHi := by
  induction es generalizing s with
  | nil => exact ⟨s, rfl, rfl⟩
  | cons e es ih =>
    obtain ⟨hhi', hhi⟩ := List.ne_and_not_mem_of_not_mem_cons hhi
    obtain ⟨hlo', hlo⟩ := List.ne_and_not_mem_of_not_mem_cons hlo
    obtain ⟨u, hu, hule, hun⟩ := emit_counts hle hhi'.symm hlo'.symm
    obtain ⟨t, ht, htn⟩ := ih hule hhi hlo
    refine ⟨t, by rw [emitAll_cons, hu, andThen_next, ht], ?_⟩
    rw [htn, hun, Nat.add_assoc, ← List.count_append, List.singleton_append, Nat.add_comm]

/-- LE_LO makes the receivers execute the command their count selects (42_protocol_engine.md rules R132, R140, R153). -/
theorem exec_leLo_of_some {s : State} {c : Strobe} (h : classify s.chips.nle = some c) :
    ∃ u, exec .leLo s = .next u ∧ u.chips = s.chips.execute c := by
  simp [exec, execLeLo, emit, h]

/-- Where the count selects no command LE_LO is a fault (42_protocol_engine.md rule R147). -/
theorem exec_leLo_of_none {s : State} (h : classify s.chips.nle = none) : exec .leLo s = .fault .unspecStrobe :=
  emit_fault_iff.mpr ⟨rfl, h, rfl⟩

/-- Settles O6: the table is checked below 16 and empty from there on; the count starts at 0 where LE rises. -/
theorem strobeCountSelectsCommand : Obligations.StrobeCountSelectsCommand := by
  refine ⟨fun n => ?_, fun es s hhi hlo => ?_⟩
  · obtain hn | hn := Nat.lt_or_ge n 16
    · interval_cases n <;> rfl
    · rw [classify_of_sixteen_le hn]
      grind
  · obtain ⟨t, ht, hcount⟩ := emitAll_counts (s := record .leHi { s with le := true, chips := s.chips.leRise }) rfl hhi hlo
    have hnle : t.chips.nle = es.count .clkHi := by simpa using hcount
    exact ⟨t, ht, hnle, fun c hc => exec_leLo_of_some (hnle ▸ hc), fun hnone => exec_leLo_of_none (hnle ▸ hnone)⟩

/-! ### The word of a plane -/

/-- One bit of a value moved to bit `m`, every other bit 0. -/
theorem bitOf_shiftLeft_getLsbD (v : Word) (k : Nat) {m : Nat} (hm : m < 16) (n : Nat) :
    (bitOf v k <<< m).getLsbD n = if n = m then v.getLsbD k else false := by
  rcases Nat.lt_trichotomy n m with h | rfl | h
  · simp [h, h.ne]
  · simp [bitOf, hm]
  · simp [bitOf, h.ne', show n - m ≠ 0 by omega]

/-- Settles O16: the word is three bits moved to three different places. -/
theorem planeWordPacksThreeBits : Obligations.PlaneWordPacksThreeBits := by
  intro gr gg gb k _ n
  simp only [planeWord, BitVec.getLsbD_or, bitOf_shiftLeft_getLsbD _ _ (show 14 < 16 by decide),
    bitOf_shiftLeft_getLsbD _ _ (show 13 < 16 by decide), bitOf_shiftLeft_getLsbD _ _ (show 12 < 16 by decide)]
  obtain rfl | h14 := eq_or_ne n 14
  · simp
  obtain rfl | h13 := eq_or_ne n 13
  · simp
  · simp [h14, h13]

/-! ### The words written to DOUT -/

theorem dataWords_append (xs ys : List PinEvent) : dataWords (xs ++ ys) = dataWords xs ++ dataWords ys :=
  List.filterMap_append

@[simp] theorem dataWords_wordPulses (ws : List Word) : dataWords (wordPulses ws) = ws := by
  induction ws with
  | nil => rfl
  | cons w ws ih => exact congrArg (w :: ·) ih

@[simp] theorem dataWords_enableWriteEvents : dataWords enableWriteEvents = [] := rfl

/-- `F_CFG(value)` writes one word for each of its sixteen pulses (42_protocol_engine.md rule R134 phase B). -/
theorem dataWords_configEvents (v : Word) : dataWords (configEvents v) = (List.range 16).map (configWord v) := by
  simp only [configEvents_eq, dataWords_append, dataWords_wordPulses]
  rfl

/-- Settles O31: `F_ENWR` writes no word, and `F_CFG` writes the value's bits as `configWord` spreads them. -/
theorem wrcfgSendsMsbFirst : Obligations.WrcfgSendsMsbFirst := by
  intro v
  rw [wrcfgEvents, dataWords_append, dataWords_enableWriteEvents, dataWords_configEvents, List.nil_append]
  rfl

end Sys2Proof.Machine
end

section
/-! SUPPORT. The gamma ROM over its full domain (40_gamma_rom.md rules R110, R111). -/

namespace Sys2Proof.Machine

/-- 40_gamma_rom.md rule R111 (GM): validity compares neighbours, and these comparisons chain through the whole table. -/
theorem gamma_monotone {p : Params} (hp : p.Valid) : Monotone fun i : Fin 256 => p.gamma[i.val].toNat := by
  obtain ⟨_, hnext, _⟩ := hp
  exact Fin.monotone_iff_le_succ.mpr fun i => BitVec.le_def.mp (hnext i)

/-- Settles O15: entry 0 is a clause of validity, and the order of two levels is that of their places in the table. -/
theorem gammaStartsAtZeroAndRises : Obligations.GammaStartsAtZeroAndRises := by
  intro p hp
  have hmono := gamma_monotone hp
  obtain ⟨hzero, _⟩ := hp
  exact ⟨hzero, fun u v huv => BitVec.le_def.mpr (hmono (a := u.toFin) (b := v.toFin) huv)⟩

/-- Settles O14: the look-up writes the entry `gammaAt` names, and no other field. -/
theorem glookupReadsTheRom : Obligations.GlookupReadsTheRom := by
  intro s v
  calc exec (.glookup v) s = execGlookup v s := rfl
    _ = .next { s with lookup := s.params.gamma[v.toNat]'v.isLt } := by rw [execGlookup, Params.gammaAt]

end Sys2Proof.Machine
end

section
/-! SUPPORT. A whole ENCODE (41_bit_plane_encoder.md rules R120, R122, R123): what each word of the frame buffer reads as after
it, what its slot decodes to, and what a second ENCODE makes of that. -/

namespace Sys2Proof.Machine

/-! ### One ENCODE -/

/-- A word of the frame buffer after a whole ENCODE: the new word of its plane inside the slot, and what it was outside. -/
theorem fbRead_encodeSlot (row col : Nat) (c : Color) (s : State) (a : Nat) :
    fbRead (encodeSlot row col c s).fb a =
      if wordAddr row col 0 ≤ a ∧ a < wordAddr row col 0 + 16 then
        planeWord (s.params.gammaAt c.1) (s.params.gammaAt c.2.1) (s.params.gammaAt c.2.2) (a - wordAddr row col 0)
      else fbRead s.fb a :=
  writePlanes_read _ _ _ _

/-- Settles O17: the operation is the sixteen word writes, of which the slot's words and the words outside it are read back. -/
theorem encodeWritesItsSlotOnly : Obligations.EncodeWritesItsSlotOnly := by
  intro s row col r g b hrow
  refine ⟨_, encode_eq_next.mpr ⟨hrow, rfl⟩, encodeSlot_eq _ _ _ _, fun k hk => ?_, fun a ha => ?_⟩
  · exact fbRead_encodeSlot_same (r, g, b) s hk
  · rw [fbRead_encodeSlot, if_neg ha]

/-- A slot whose planes are those of one colour decodes to its gamma value on each channel's bit. -/
theorem dec_of_planeWords {t : State} {row col bit : Nat} {gr gg gb v : Word}
    (hword : ∀ k < 16, t.word row col k = planeWord gr gg gb k) (hbit : (bit, v) ∈ [(14, gr), (13, gg), (12, gb)]) :
    t.dec row col bit = v := by
  refine BitVec.eq_of_getLsbD_eq fun n hn => ?_
  calc (t.dec row col bit).getLsbD n = (t.word row col (15 - n)).getLsbD bit := dec_getLsbD t row col bit hn
    _ = v.getLsbD (15 - (15 - n)) := by rw [hword _ (by omega), planeWord_getLsbD_of_mem hbit]
    _ = v.getLsbD n := by rw [Nat.sub_sub_self (by omega)]

/-- Settles O18: every plane of the slot is the encoded colour's. -/
theorem encodedSlotDecodesToGamma : Obligations.EncodedSlotDecodesToGamma := by
  intro s t row col r g b h
  obtain ⟨-, rfl⟩ := encode_eq_next.mp h
  have hword (k : Nat) (hk : k < 16) := fbRead_encodeSlot_same (row := row.toNat) (col := col.toNat) (r, g, b) s hk
  exact ⟨dec_of_planeWords hword (by simp), dec_of_planeWords hword (by simp), dec_of_planeWords hword (by simp)⟩

/-! ### A second ENCODE -/

/-- Slots begin at different addresses (20_memory.md rule R51). -/
theorem wordAddr_zero_inj {row col row' col' : Nat} (hcol : col < 16) (hcol' : col' < 16) :
    wordAddr row' col' 0 = wordAddr row col 0 ↔ (row', col') = (row, col) := by
  rw [Prod.mk.injEq, wordAddr, wordAddr]
  omega

/-- Of two ENCODEs of one slot the later decides every word (41_bit_plane_encoder.md rule R123 (d)). -/
theorem fbRead_encodeSlot_encodeSlot_same (row col : Nat) (c c' : Color) (s : State) (a : Nat) :
    fbRead (encodeSlot row col c' (encodeSlot row col c s)).fb a = fbRead (encodeSlot row col c' s).fb a := by
  simp only [fbRead_encodeSlot, encodeSlot_params]
  by_cases hin : wordAddr row col 0 ≤ a ∧ a < wordAddr row col 0 + 16
  · rw [if_pos hin, if_pos hin]
  · rw [if_neg hin, if_neg hin, if_neg hin]

/-- ENCODEs of two slots give every word the same in either order: no address is in both (rule R123 (d)). -/
theorem fbRead_encodeSlot_comm {row col row' col' : Nat} (hslot : wordAddr row' col' 0 ≠ wordAddr row col 0) (c c' : Color)
    (s : State) (a : Nat) :
    fbRead (encodeSlot row' col' c' (encodeSlot row col c s)).fb a =
      fbRead (encodeSlot row col c (encodeSlot row' col' c' s)).fb a := by
  simp only [fbRead_encodeSlot, encodeSlot_params]
  by_cases hin : wordAddr row col 0 ≤ a ∧ a < wordAddr row col 0 + 16
  · have hout : ¬(wordAddr row' col' 0 ≤ a ∧ a < wordAddr row' col' 0 + 16) := by
      unfold wordAddr at *
      omega
    rw [if_neg hout, if_pos hin, if_pos hin]
  · rw [if_neg hin, if_neg hin]

/-- An ENCODE keeps the unused bits of every word 0 (10_state.md rule R38 (I-a)). -/
theorem fbClean_encodeSlot (row col : Nat) (c : Color) {s : State} (h : FbClean s.fb) :
    FbClean (encodeSlot row col c s).fb := by
  intro a
  rw [fbRead_encodeSlot]
  split
  · exact planeWord_clean _ _ _ _
  · exact h a

/-- Settles O19: idempotence is the later ENCODE winning over an equal one, and the rest is told by the slots' addresses. -/
theorem encodeIdempotentLocalCommuting : Obligations.EncodeIdempotentLocalCommuting := by
  refine ⟨fun s t u row col r g b ht hu a => ?_, fun s t row col r g b ht => ?_,
    fun s t t' u u' row row' col col' r g b r' g' b' ht hu ht' hu' => ?_⟩
  · obtain ⟨-, rfl⟩ := encode_eq_next.mp ht
    obtain ⟨-, rfl⟩ := encode_eq_next.mp hu
    exact fbRead_encodeSlot_encodeSlot_same _ _ _ _ s a
  · obtain ⟨-, rfl⟩ := encode_eq_next.mp ht
    refine ⟨fun row' col' k hcol' hk hne => ?_, fbClean_encodeSlot _ _ _⟩
    exact fbRead_encodeSlot_other _ s hk fun haddr => hne ((wordAddr_zero_inj col.isLt hcol').mp haddr)
  · obtain ⟨-, rfl⟩ := encode_eq_next.mp ht
    obtain ⟨-, rfl⟩ := encode_eq_next.mp hu
    obtain ⟨-, rfl⟩ := encode_eq_next.mp ht'
    obtain ⟨-, rfl⟩ := encode_eq_next.mp hu'
    refine ⟨fun hne a => fbRead_encodeSlot_comm (fun haddr => hne ?_) _ _ s a, fun heq a => ?_⟩
    · simpa [BitVec.toNat_inj] using (wordAddr_zero_inj col.isLt col'.isLt).mp haddr
    · obtain ⟨rfl, rfl⟩ := Prod.mk.inj heq
      exact fbRead_encodeSlot_encodeSlot_same _ _ _ _ s a

end Sys2Proof.Machine
end

section
/-! SUPPORT. An interrupted operation against the whole one (20_memory.md rules R62, R63; 41_bit_plane_encoder.md rule R121;
60_exceptions.md rule R214): sub-steps leave unchanged what the operation in progress will have done at its end, and bring the end
nearer. -/

namespace Sys2Proof.Machine

/-! ### What an operation in progress comes to -/

/-- What an operation still does after the ENCODE in progress has ended: nothing, DIRTY, or SET_COLOR_ALL's further slots. -/
def afterEncode (k : JobKind) (s : State) : State :=
  match k with
  | .encode => s
  | .setColor => setDirty s
  | .setColorAll r g b ind slot =>
    setDirty (encodeSlots (r, g, b) ind (slot + 1) (s.params.rowCount * 16 - (slot + 1)) s)

/-- The state in which the operation in progress, if there is one, has been performed to its end. -/
def endState (s : State) : State :=
  match s.busy with
  | none => s
  | some j => afterEncode j.kind (writePlanes j.enc (16 - j.enc.p) { s with busy := none })

theorem endState_of_idle {s : State} (h : s.busy = none) : endState s = s := by rw [endState, h]

theorem endState_of_busy {s : State} {j : Job} (h : s.busy = some j) :
    endState s = afterEncode j.kind (writePlanes j.enc (16 - j.enc.p) { s with busy := none }) := by rw [endState, h]

/-- The operations that can be interrupted, and how each begins (20_memory.md rules R62, R63). -/
theorem jobOf_cases {i : Instr} {s : State} {j : Job} (h : jobOf i s = some j) :
    (∃ row col r g b, i = .encode row col r g b ∧ s.params.excl = .noExcl ∧ row.toNat < s.params.rowCount ∧
      j = ⟨.encode, startEncoder s.params row.toNat col.toNat (r, g, b)⟩) ∨
    (∃ index r g b pos, i = .setColor index r g b ∧ s.params.excl = .noExcl ∧ s.params.ledPos[index.toNat]? = some pos ∧
      j = ⟨.setColor, startEncoder s.params pos.row.toNat pos.col.toNat
        (override s.params index.toNat (r, g, b) s.indicator)⟩) ∨
    (∃ r g b, i = .setColorAll r g b ∧
      j = ⟨.setColorAll r g b s.indicator 0, slotEncoder s.params (r, g, b) s.indicator 0⟩) := by
  cases i <;> simp only [jobOf, reduceCtorEq, Option.ite_none_right_eq_some, Option.map_eq_some_iff,
    Option.some.injEq] at h
  case encode row col r g b =>
    obtain ⟨⟨hexcl, hrow⟩, rfl⟩ := h
    exact .inl ⟨row, col, r, g, b, rfl, hexcl, hrow, rfl⟩
  case setColor index r g b =>
    obtain ⟨hexcl, pos, hpos, rfl⟩ := h
    exact .inr (.inl ⟨index, r, g, b, pos, rfl, hexcl, hpos, rfl⟩)
  case setColorAll r g b => exact .inr (.inr ⟨r, g, b, rfl, h.symm⟩)

/-- The ENCODE of one slot and what SET_COLOR_ALL does after it are its ENCODEs from that slot on, and DIRTY. -/
theorem afterEncode_slot {slot : Nat} {s : State} (hslot : slot < s.params.rowCount * 16) (r g b : Level) (ind : Bool) :
    afterEncode (.setColorAll r g b ind slot) (writePlanes (slotEncoder s.params (r, g, b) ind slot) 16 s) =
      setDirty (encodeSlots (r, g, b) ind slot (s.params.rowCount * 16 - slot) s) := by
  rw [afterEncode, writePlanes_params, show s.params.rowCount * 16 - slot = s.params.rowCount * 16 - (slot + 1) + 1 by omega]
  rfl

/-- An operation that can be interrupted, performed whole, does what it comes to when it has just begun. -/
theorem exec_eq_endState {i : Instr} {s : State} {j : Job} (hbusy : s.busy = none) (hjob : jobOf i s = some j) :
    exec i s = .next (endState { s with busy := some j }) := by
  have hidle : { s with busy := none } = s := by rw [← hbusy]
  rw [endState_of_busy rfl, hidle]
  obtain ⟨row, col, r, g, b, rfl, -, hrow, rfl⟩ | ⟨index, r, g, b, pos, rfl, -, hpos, rfl⟩ | ⟨r, g, b, rfl, rfl⟩ :=
    jobOf_cases hjob
  · exact encode_eq_next.mpr ⟨hrow, rfl⟩
  · exact execSetColor_of_some hpos r g b
  · exact setColorAll_eq_next.mpr (afterEncode_slot (Nat.mul_pos (rowCount_pos _) (by decide)) r g b _)

/-! ### A sub-step keeps it -/

/-- Word writes do not read which operation is in progress. -/
theorem writePlanes_withBusy (e : Encoder) (n : Nat) (s : State) (busy : Option Job) :
    writePlanes e n { s with busy := busy } = { writePlanes e n s with busy := busy } := by
  induction n generalizing e s with
  | zero => rfl
  | succ n ih => exact ih _ (writePlane e s)

/-- What a sub-step can do: write some planes and leave others, or write all that are left and end the ENCODE. -/
theorem subStep_cases {j : Job} (s : State) (hp : j.enc.p < 16) : ∃ n, 0 < n ∧
    ((j.enc.p + n < 16 ∧ subStep j s =
        { writePlanes j.enc n s with busy := some { j with enc := { j.enc with p := j.enc.p + n } } }) ∨
      (j.enc.p + n = 16 ∧ subStep j s = endEncode j.kind (writePlanes j.enc n s))) := by
  have hpos : 0 < subStepWrites s.params j.enc := by
    unfold subStepWrites
    split <;> omega
  have hle := subStepWrites_le (p := s.params) hp
  refine ⟨subStepWrites s.params j.enc, hpos, ?_⟩
  by_cases hlt : j.enc.p + subStepWrites s.params j.enc < 16
  · exact .inl ⟨hlt, if_pos hlt⟩
  · exact .inr ⟨by omega, if_neg hlt⟩

/-- The end of an ENCODE leaves to the operation what follows an ENCODE. -/
theorem endState_endEncode (k : JobKind) (s : State) : endState (endEncode k s) = afterEncode k { s with busy := none } := by
  cases k with
  | encode => rfl
  | setColor => rfl
  | setColorAll r g b ind slot =>
    by_cases hnext : slot + 1 < s.params.rowCount * 16
    · rw [endEncode, if_pos hnext]
      exact afterEncode_slot (s := { s with busy := none }) hnext r g b ind
    · rw [endEncode, if_neg hnext, endState_of_idle rfl, afterEncode, Nat.sub_eq_zero_of_le (Nat.le_of_not_lt hnext)]
      rfl

/-- A sub-step does not change what the operation comes to. -/
theorem endState_subStep {j : Job} {s : State} (hbusy : s.busy = some j) (hp : j.enc.p < 16) :
    endState (subStep j s) = endState s := by
  obtain ⟨n, -, ⟨hlt, hsub⟩ | ⟨hlast, hsub⟩⟩ := subStep_cases s hp <;> rw [hsub, endState_of_busy hbusy]
  · rw [endState_of_busy rfl, show 16 - j.enc.p = n + (16 - (j.enc.p + n)) by omega, writePlanes_add,
      writePlanes_withBusy j.enc n s none]
  · rw [endState_endEncode, show 16 - j.enc.p = n by omega, writePlanes_withBusy j.enc n s none]

/-! ### A sub-step brings the end nearer -/

/-- The ENCODE in progress, if there is one, has a plane left to write. -/
def PlaneLeft (s : State) : Prop := ∀ j ∈ s.busy, j.enc.p < 16

/-- The slots that follow the one being encoded. -/
def slotsAfter (p : Params) (k : JobKind) : Nat :=
  match k with
  | .encode => 0
  | .setColor => 0
  | .setColorAll _ _ _ _ slot => p.rowCount * 16 - (slot + 1)

/-- How many word writes the operation in progress has left. -/
def wordsLeft (s : State) : Nat :=
  match s.busy with
  | none => 0
  | some j => 16 - j.enc.p + 16 * slotsAfter s.params j.kind

theorem wordsLeft_of_busy {s : State} {j : Job} (h : s.busy = some j) :
    wordsLeft s = 16 - j.enc.p + 16 * slotsAfter s.params j.kind := by rw [wordsLeft, h]

/-- After an ENCODE the operation has ended, or it is at the first plane of the next slot. -/
theorem planeLeft_endEncode (k : JobKind) (s : State) : PlaneLeft (endEncode k s) := by
  intro j hj
  cases k with
  | encode => cases hj
  | setColor => cases hj
  | setColorAll r g b ind slot =>
    by_cases hnext : slot + 1 < s.params.rowCount * 16
    · rw [endEncode, if_pos hnext] at hj
      cases hj
      exact Nat.zero_lt_succ 15
    · rw [endEncode, if_neg hnext] at hj
      cases hj

theorem wordsLeft_endEncode_le (k : JobKind) (s : State) : wordsLeft (endEncode k s) ≤ 16 * slotsAfter s.params k := by
  cases k with
  | encode => exact Nat.le_refl 0
  | setColor => exact Nat.le_refl 0
  | setColorAll r g b ind slot =>
    by_cases hnext : slot + 1 < s.params.rowCount * 16
    · rw [endEncode, if_pos hnext, wordsLeft_of_busy rfl]
      change 16 + 16 * (s.params.rowCount * 16 - (slot + 1 + 1)) ≤ 16 * (s.params.rowCount * 16 - (slot + 1))
      omega
    · rw [endEncode, if_neg hnext]
      exact Nat.zero_le _

theorem subStep_keeps_planeLeft {j : Job} (s : State) (hp : j.enc.p < 16) : PlaneLeft (subStep j s) := by
  obtain ⟨n, -, ⟨hlt, hsub⟩ | ⟨-, hsub⟩⟩ := subStep_cases s hp <;> rw [hsub]
  · intro j' hj'
    cases hj'
    exact hlt
  · exact planeLeft_endEncode _ _

theorem wordsLeft_subStep_lt {j : Job} {s : State} (hbusy : s.busy = some j) (hp : j.enc.p < 16) :
    wordsLeft (subStep j s) < wordsLeft s := by
  obtain ⟨n, hn, ⟨hlt, hsub⟩ | ⟨-, hsub⟩⟩ := subStep_cases s hp <;> rw [hsub, wordsLeft_of_busy hbusy]
  · rw [wordsLeft_of_busy rfl]
    simp only [writePlanes_params]
    omega
  · have hle := wordsLeft_endEncode_le j.kind (writePlanes j.enc n s)
    rw [writePlanes_params] at hle
    omega

/-! ### Enough sub-steps -/

/-- As many sub-steps as there are word writes left take the operation to its end. -/
theorem runFor_eq_endState {n : Nat} {s : State} (hplane : PlaneLeft s) (hn : wordsLeft s ≤ n) : runFor n s = endState s := by
  induction n generalizing s with
  | zero =>
    cases hbusy : s.busy with
    | none => exact (endState_of_idle hbusy).symm
    | some j =>
      have hp := hplane j hbusy
      rw [wordsLeft_of_busy hbusy] at hn
      omega
  | succ n ih =>
    cases hbusy : s.busy with
    | none => rw [runFor, hbusy, endState_of_idle hbusy]
    | some j =>
      have hp := hplane j hbusy
      have hless := wordsLeft_subStep_lt hbusy hp
      calc runFor (n + 1) s = runFor n (subStep j s) := by rw [runFor, hbusy]
        _ = endState (subStep j s) := ih (subStep_keeps_planeLeft s hp) (by omega)
        _ = endState s := endState_subStep hbusy hp

/-- Sub-steps made in two parts. -/
theorem runFor_add (m n : Nat) (s : State) : runFor (m + n) s = runFor n (runFor m s) := by
  induction m generalizing s with
  | zero => rw [Nat.zero_add, runFor]
  | succ m ih =>
    cases hbusy : s.busy with
    | none =>
      have hidle (l : Nat) : runFor l s = s := by cases l <;> simp [runFor, hbusy]
      rw [hidle, hidle, hidle]
    | some j =>
      rw [Nat.succ_add, runFor, runFor, hbusy]
      exact ih _

/-- An operation that begins has a plane left, and no more word writes than the frame buffer has words. -/
theorem wordsLeft_of_jobOf {i : Instr} {s : State} {j : Job} (h : jobOf i s = some j) :
    PlaneLeft { s with busy := some j } ∧ wordsLeft { s with busy := some j } ≤ s.params.rowCount * 256 := by
  have hrows := rowCount_pos s.params
  obtain ⟨hp, hslots⟩ : j.enc.p = 0 ∧ slotsAfter s.params j.kind + 1 ≤ s.params.rowCount * 16 := by
    obtain ⟨_, _, _, _, _, -, -, -, rfl⟩ | ⟨_, _, _, _, _, -, -, -, rfl⟩ | ⟨_, _, _, -, rfl⟩ := jobOf_cases h
    all_goals exact ⟨rfl, by simp only [slotsAfter]; omega⟩
  refine ⟨fun j' hj' => ?_, ?_⟩
  · cases hj'
    omega
  · rw [wordsLeft_of_busy rfl, hp]
    change 16 + 16 * slotsAfter s.params j.kind ≤ s.params.rowCount * 256
    omega

/-- Settles O22: the interrupted part and the finish are one run of sub-steps, long enough to come to what the whole operation
does. -/
theorem interruptedOperationEqualsWhole : Obligations.InterruptedOperationEqualsWhole := by
  intro s i j k hbusy hjob
  obtain ⟨hplane, hwords⟩ := wordsLeft_of_jobOf hjob
  have hparams : (runFor k { s with busy := some j }).params = s.params := by rw [runFor_eq]
  rw [exec_eq_endState hbusy hjob, finishJob, hparams, ← runFor_add, runFor_eq_endState hplane (by omega)]

end Sys2Proof.Machine
end

section
/-! SUPPORT. The pin micro-operations and the strobe commands performed by themselves (42_protocol_engine.md rules R130 to R133, R140
to R147, R151 to R153). -/

namespace Sys2Proof.Machine

/-! ### The pin micro-operations -/

/-- PULSE is the events of one pulse (42_protocol_engine.md rule R130). -/
theorem exec_pulse (s : State) : exec .pulse s =
    .next { s with dclk := false, trace := .clkLo :: .clkHi :: s.trace, chips := s.chips.clockIn s.dout s.le } :=
  emitAll_pulse s

/-- LE_LO where the count selects a command (42_protocol_engine.md rules R132, R140). -/
theorem exec_leLo_eq {s : State} {c : Strobe} (h : classify s.chips.nle = some c) : exec .leLo s =
    .next { s with le := false, trace := .leLo :: s.trace, chips := s.chips.execute c } := by
  simp only [exec, execLeLo, emit, h, record]

/-- Settles O24: each is its own one or two pin events, and no event checks a pin's level. -/
theorem pinMicroOperations : Obligations.PinMicroOperations :=
  ⟨exec_pulse, fun _ => rfl, fun _ _ => rfl⟩

/-- A shift keeps bits 14 to 0 and puts the new bit below them (42_protocol_engine.md rule R151). -/
theorem shiftConcat_eq_append (x : Word) (b : Bool) : x.shiftConcat b = x.extractLsb' 0 15 ++ BitVec.ofBool b := by
  apply BitVec.eq_of_getLsbD_eq
  intro n hn
  simp only [BitVec.getLsbD_shiftConcat, BitVec.getLsbD_append, BitVec.getLsbD_extractLsb', BitVec.getLsbD_ofBool]
  obtain rfl | hpos := Nat.eq_zero_or_pos n
  · simp
  · simp [hn, hpos.ne', show ¬n < 1 by omega, show n - 1 < 15 by omega]

/-- Settles O25: the one `C+` of a pulse shifts each receiver's data line in. -/
theorem pulseShiftsDataLinesIn : Obligations.PulseShiftsDataLinesIn := fun s =>
  ⟨_, exec_pulse s, shiftConcat_eq_append _ _, shiftConcat_eq_append _ _, shiftConcat_eq_append _ _,
    clockIn_nle _ _ _, clockIn_armed _ _ _, clockIn_pwmResets _ _ _, fun c => by simp⟩

/-- Settles O26: an `L-` faults exactly where the count selects nothing, and of the commands only EN_WRITE_CFG arms. -/
theorem leLoExecutesTheStrobe : Obligations.LeLoExecutesTheStrobe :=
  ⟨fun _ _ hc => ⟨_, exec_leLo_eq hc, rfl, by simp⟩, fun _ => exec_leLo_of_none⟩

/-! ### The strobe commands -/

/-- Settles O27: both are the receivers' reactions, read field by field. -/
theorem latchCommandsMoveWords : Obligations.LatchCommandsMoveWords := by
  intro s n
  have hdata : exec (.dataLatch n) s = .next { s with chips := s.chips.execute .dataLatch } := rfl
  have hglobal : exec (.globalLatch n) s = .next { s with chips := s.chips.execute .globalLatch } := rfl
  exact ⟨⟨_, hdata, rfl, rfl, rfl, rfl, fun c => by simp⟩, ⟨_, hglobal, rfl, rfl, rfl, rfl, fun c => by simp⟩⟩

/-- READ_CFG changes ARMED only (42_protocol_engine.md rule R143). -/
theorem exec_readCfg (n : Nat) (s : State) :
    exec (.readCfg n) s = .next { s with chips := { s.chips with armed := false } } := rfl

/-- EN_WRITE_CFG changes ARMED only (42_protocol_engine.md rule R145). -/
theorem exec_enWriteCfg (n : Nat) (s : State) :
    exec (.enWriteCfg n) s = .next { s with chips := { s.chips with armed := true } } := rfl

/-- Settles O28: three commands write what the receivers share; WRITE_CFG splits on whether they are armed. -/
theorem configAndResetCommands : Obligations.ConfigAndResetCommands := by
  intro s n
  have hwrite : exec (.writeCfg n) s = .next { s with chips := s.chips.execute .writeCfg } := rfl
  refine ⟨exec_readCfg n s, exec_enWriteCfg n s, rfl, _, hwrite, rfl, rfl, rfl, rfl, fun c => ?_⟩
  rw [writeCfg_chip]
  split <;> simp

end Sys2Proof.Machine
end

section
/-! SUPPORT. The shape of the engine's event lists (42_protocol_engine.md rules R134 to R139): each is a sequence of frames of
sixteen pulses with one strobe, which gives its size, its strobes and its pacing whatever the data. -/

namespace Sys2Proof.Machine

/-! ### Runs of pulses -/

/-- `es` is `n` pulses, with words written to DOUT before, between or after them. -/
inductive PulseRun : Nat → List PinEvent → Prop where
  | nil : PulseRun 0 []
  | data (w : Word) {n : Nat} {es : List PinEvent} (h : PulseRun n es) : PulseRun n (.data w :: es)
  | pulse {n : Nat} {es : List PinEvent} (h : PulseRun n es) : PulseRun (n + 1) (.clkHi :: .clkLo :: es)

theorem PulseRun.append {m n : Nat} {xs ys : List PinEvent} (hx : PulseRun m xs) (hy : PulseRun n ys) :
    PulseRun (m + n) (xs ++ ys) := by
  induction hx with
  | nil => simpa using hy
  | data w _ ih => exact ih.data w
  | pulse _ ih => rw [Nat.succ_add]; exact ih.pulse

theorem pulseRun_pulses (n : Nat) : PulseRun n (pulses n) := by
  induction n with
  | zero => exact .nil
  | succ n ih => rw [pulses_succ]; exact ih.pulse

theorem pulseRun_wordPulses {ws : List Word} {n : Nat} (h : ws.length = n) : PulseRun n (wordPulses ws) := by
  subst h
  induction ws with
  | nil => exact .nil
  | cons w ws ih => exact ih.pulse.data w

/-- An open strobe has the run's pulses added to its count (30_encoding.md rule R83). -/
theorem PulseRun.strobeCounts_append {n : Nat} {es : List PinEvent} (h : PulseRun n es) (k : Option Nat)
    (rest : List PinEvent) : strobeCounts k (es ++ rest) = strobeCounts (k.map (· + n)) rest := by
  induction h generalizing k with
  | nil => simp
  | data w _ ih => exact ih k
  | pulse _ ih =>
    refine (ih (k.map (· + 1))).trans ?_
    simp [Function.comp_def, Nat.add_comm, Nat.add_left_comm]

/-- A run keeps LE as it is and leaves DCLK low between its pulses. -/
theorem PulseRun.paced_append {n : Nat} {es : List PinEvent} (h : PulseRun n es) (le : Bool) (rest : List PinEvent) :
    paced le false (es ++ rest) = paced le false rest := by
  induction h with
  | nil => rfl
  | data w _ ih => simpa [paced] using ih
  | pulse _ ih => simpa [paced] using ih

theorem PulseRun.count {n : Nat} {es : List PinEvent} (h : PulseRun n es) :
    es.count .clkHi = n ∧ es.count .clkLo = n ∧ es.count .leHi = 0 ∧ es.count .leLo = 0 := by
  induction h with
  | nil => simp
  | data w _ ih => simpa [List.count_cons] using ih
  | pulse _ ih => simpa [List.count_cons] using ih

theorem dataWords_cons_data (w : Word) (es : List PinEvent) : dataWords (.data w :: es) = w :: dataWords es := rfl

theorem PulseRun.length {n : Nat} {es : List PinEvent} (h : PulseRun n es) :
    es.length = 2 * n + (dataWords es).length := by
  induction h with
  | nil => rfl
  | data w _ ih => rw [dataWords_cons_data, List.length_cons, List.length_cons, ih, Nat.add_assoc]
  | @pulse n es _ ih =>
    have hwords : dataWords (.clkHi :: .clkLo :: es) = dataWords es := rfl
    rw [hwords, List.length_cons, List.length_cons, ih]
    omega

/-! ### Frames -/

/-- `es` is a frame: sixteen pulses, of which LE is high for the last `k` (42_protocol_engine.md rules R134, R136 to R138). -/
def Frame (k : Nat) (es : List PinEvent) : Prop :=
  ∃ n before strobe, es = before ++ ([.leHi] ++ strobe ++ [.leLo]) ∧ n + k = 16 ∧ PulseRun n before ∧ PulseRun k strobe

theorem frame_enableWrite : Frame 15 enableWriteEvents :=
  ⟨1, _, _, enableWriteEvents_eq, rfl, pulseRun_pulses 1, pulseRun_pulses 15⟩

theorem frame_config (v : Word) : Frame 10 (configEvents v) :=
  ⟨6, _, _, configEvents_eq v, rfl, pulseRun_wordPulses rfl, pulseRun_wordPulses rfl⟩

theorem frame_group (m : List FbCell) (row g : Nat) : Frame 1 (groupEvents m row g) :=
  ⟨15, _, _, (groupEvents_eq m row g).trans (List.append_assoc _ _ _).symm, rfl,
    (pulseRun_wordPulses (n := 15) rfl).append (PulseRun.nil.data _), pulseRun_pulses 1⟩

theorem frame_glatch : Frame 3 glatchEvents := ⟨13, _, _, glatchEvents_eq, rfl, pulseRun_pulses 13, pulseRun_pulses 3⟩

theorem frame_pwmrst : Frame 13 pwmrstEvents := ⟨3, _, _, pwmrstEvents_eq, rfl, pulseRun_pulses 3, pulseRun_pulses 13⟩

theorem Frame.strobeCounts_append {k : Nat} {es : List PinEvent} (h : Frame k es) (rest : List PinEvent) :
    strobeCounts none (es ++ rest) = k :: strobeCounts none rest := by
  obtain ⟨n, before, strobe, rfl, -, hbefore, hstrobe⟩ := h
  simp [hbefore.strobeCounts_append, hstrobe.strobeCounts_append, strobeCounts]

theorem Frame.paced_append {k : Nat} {es : List PinEvent} (h : Frame k es) (rest : List PinEvent) :
    paced false false (es ++ rest) = paced false false rest := by
  obtain ⟨n, before, strobe, rfl, -, hbefore, hstrobe⟩ := h
  simp [hbefore.paced_append, hstrobe.paced_append, paced]

theorem Frame.count {k : Nat} {es : List PinEvent} (h : Frame k es) :
    es.count .clkHi = 16 ∧ es.count .clkLo = 16 ∧ es.count .leHi = 1 ∧ es.count .leLo = 1 := by
  obtain ⟨n, before, strobe, rfl, hn, hbefore, hstrobe⟩ := h
  obtain ⟨bHi, bLo, bUp, bDown⟩ := hbefore.count
  obtain ⟨sHi, sLo, sUp, sDown⟩ := hstrobe.count
  simp [List.count_append, bHi, bLo, bUp, bDown, sHi, sLo, sUp, sDown, hn]

theorem Frame.length {k : Nat} {es : List PinEvent} (h : Frame k es) : es.length = 34 + (dataWords es).length := by
  obtain ⟨n, before, strobe, rfl, hn, hbefore, hstrobe⟩ := h
  simp only [List.length_append, dataWords_append, hbefore.length, hstrobe.length]
  simp [dataWords]
  omega

/-- `es` is a sequence of frames whose strobes have the counts `ks`. -/
inductive Frames : List Nat → List PinEvent → Prop where
  | nil : Frames [] []
  | cons {k : Nat} {ks : List Nat} {xs ys : List PinEvent} (h : Frame k xs) (hs : Frames ks ys) : Frames (k :: ks) (xs ++ ys)

theorem Frames.append {ks ls : List Nat} {xs ys : List PinEvent} (hx : Frames ks xs) (hy : Frames ls ys) :
    Frames (ks ++ ls) (xs ++ ys) := by
  induction hx with
  | nil => exact hy
  | cons h _ ih => rw [List.cons_append, List.append_assoc]; exact ih.cons h

theorem Frame.frames {k : Nat} {es : List PinEvent} (h : Frame k es) : Frames [k] es := by
  simpa using Frames.nil.cons h

theorem frames_wrcfg (v : Word) : Frames [15, 10] (wrcfgEvents v) := frame_enableWrite.frames.append (frame_config v).frames

theorem frames_groups (m : List FbCell) (row : Nat) (gs : List Nat) :
    Frames (List.replicate gs.length 1) (gs.flatMap (groupEvents m row)) := by
  induction gs with
  | nil => exact .nil
  | cons g gs ih => exact ih.cons (frame_group m row g)

theorem frames_drain (m : List FbCell) (row : Nat) : Frames (List.replicate 16 1 ++ [3, 13]) (drainEvents m row) :=
  ((frames_groups m row (List.range 16)).append frame_glatch.frames).append frame_pwmrst.frames

theorem Frames.strobeCounts {ks : List Nat} {es : List PinEvent} (h : Frames ks es) : strobeCounts none es = ks := by
  induction h with
  | nil => rfl
  | cons h _ ih => rw [h.strobeCounts_append, ih]

theorem Frames.paced {ks : List Nat} {es : List PinEvent} (h : Frames ks es) : paced false false es = true := by
  induction h with
  | nil => rfl
  | cons h _ ih => rw [h.paced_append, ih]

theorem Frames.count {ks : List Nat} {es : List PinEvent} (h : Frames ks es) :
    es.count .clkHi = 16 * ks.length ∧ es.count .clkLo = 16 * ks.length ∧
      es.count .leHi = ks.length ∧ es.count .leLo = ks.length := by
  induction h with
  | nil => simp
  | cons h _ ih =>
    obtain ⟨hHi, hLo, hUp, hDown⟩ := h.count
    obtain ⟨iHi, iLo, iUp, iDown⟩ := ih
    simp only [List.count_append, List.length_cons, hHi, hLo, hUp, hDown, iHi, iLo, iUp, iDown]
    omega

theorem Frames.length {ks : List Nat} {es : List PinEvent} (h : Frames ks es) :
    es.length = 34 * ks.length + (dataWords es).length := by
  induction h with
  | nil => rfl
  | cons h _ ih => simp only [List.length_append, dataWords_append, List.length_cons, h.length, ih]; omega

/-! ### The words of a drain -/

@[simp] theorem dataWords_glatchEvents : dataWords glatchEvents = [] := rfl

@[simp] theorem dataWords_pwmrstEvents : dataWords pwmrstEvents = [] := rfl

/-- `F_GROUP(row, g)` writes the row's words of plane `15 - g`, column by column (42_protocol_engine.md rule R136). -/
theorem dataWords_groupEvents (m : List FbCell) (row g : Nat) : dataWords (groupEvents m row g) =
    (List.range 16).map fun i => fbRead m (wordAddr row i (15 - g)) := by
  simp only [groupEvents_eq, dataWords_append, dataWords_wordPulses]
  rfl

theorem dataWords_drainEvents (m : List FbCell) (row : Nat) : dataWords (drainEvents m row) =
    (List.range 16).flatMap fun g => (List.range 16).map fun i => fbRead m (wordAddr row i (15 - g)) := by
  have hgroups (gs : List Nat) : dataWords (gs.flatMap (groupEvents m row)) =
      gs.flatMap fun g => (List.range 16).map fun i => fbRead m (wordAddr row i (15 - g)) := by
    induction gs with
    | nil => rfl
    | cons g gs ih => simp only [List.flatMap_cons, dataWords_append, dataWords_groupEvents, ih]
  simp only [drainEvents, dataWords_append, hgroups, dataWords_glatchEvents, dataWords_pwmrstEvents, List.append_nil]

theorem groupEvents_congr {m m' : List FbCell} {row : Nat}
    (h : ∀ a, row * 256 ≤ a → a < row * 256 + 256 → fbRead m a = fbRead m' a) (g : Nat) :
    groupEvents m row g = groupEvents m' row g := by
  have hword (i : Nat) (hi : i < 16) : fbRead m (wordAddr row i (15 - g)) = fbRead m' (wordAddr row i (15 - g)) :=
    h _ (by unfold wordAddr; omega) (by unfold wordAddr; omega)
  unfold groupEvents
  congr 1
  exact List.flatMap_congr fun i hi => by rw [hword i (List.mem_range.mp hi)]

/-! ### The obligations about the event lists -/

/-- Settles O30: two frames and the sixteen words of the second. -/
theorem wrcfgHasFixedSize : Obligations.WrcfgHasFixedSize := by
  intro v
  have hframes := frames_wrcfg v
  obtain ⟨hHi, hLo, hUp, hDown⟩ := hframes.count
  have hwords : (dataWords (wrcfgEvents v)).length = 16 := by
    rw [wrcfgEvents, dataWords_append, dataWords_enableWriteEvents, dataWords_configEvents]
    simp
  exact ⟨hHi, hLo, hUp, hDown, hwords, by rw [hframes.length, hwords]; rfl, hframes.strobeCounts⟩

/-- Settles O34: eighteen frames, and sixteen words in each of the first sixteen. -/
theorem drainSendsWholeRow : Obligations.DrainSendsWholeRow := by
  intro m row
  have hframes := frames_drain m row
  obtain ⟨hHi, hLo, hUp, hDown⟩ := hframes.count
  have hwords : (dataWords (drainEvents m row)).length = 256 := by
    rw [dataWords_drainEvents]
    simp [List.length_flatMap]
  exact ⟨dataWords_drainEvents m row, hHi, hLo, hUp, hDown, by rw [hframes.length, hwords]; rfl, hframes.strobeCounts⟩

/-- Settles O37: every list is a sequence of frames. -/
theorem engineSequencesArePaced : Obligations.EngineSequencesArePaced :=
  ⟨fun v => (frames_wrcfg v).paced, fun m row => (frames_drain m row).paced, frame_glatch.frames.paced,
    frame_pwmrst.frames.paced⟩

/-- Settles O57: the words of a group lie within the row's addresses. -/
theorem drainReadsItsOwnRowOnly : Obligations.DrainReadsItsOwnRowOnly := by
  intro m m' row h
  rw [drainEvents, drainEvents, funext (groupEvents_congr h)]

/-- Settles O59: the table of counts is searched below 16, and the frames' counts 15, 10, 1, 3 and 13 miss READ_CFG's. -/
theorem readAndEnableWriteConfig : Obligations.ReadAndEnableWriteConfig := by
  refine ⟨fun n => ?_, fun s n => exec_readCfg n s, fun v m row n hn => ?_, fun s n => exec_enWriteCfg n s,
    fun s n k => ⟨_, rfl, rfl⟩, frame_enableWrite.frames.strobeCounts, fun v => rfl⟩
  · obtain hn | hn := Nat.lt_or_ge n 16
    · interval_cases n <;> decide
    · rw [classify_of_sixteen_le hn]
      simp only [reduceCtorEq, false_iff, not_or]
      omega
  · rw [(frames_wrcfg v).strobeCounts, (frames_drain m row).strobeCounts, frame_glatch.frames.strobeCounts,
      frame_pwmrst.frames.strobeCounts] at hn
    revert n
    decide

end Sys2Proof.Machine
end

section
/-! SUPPORT. What WRCFG, DRAIN, GLATCH and PWMRST leave in the pins and in the receivers (42_protocol_engine.md rules R134, R136 to R138,
R155). -/

namespace Sys2Proof.Machine

/-! ### The pins -/

/-- DOUT holds the last word written to it. -/
theorem emitAll_dout {es : List PinEvent} {s t : State} (h : emitAll es s = .next t) :
    t.dout = (dataWords es).getLastD s.dout := by
  induction es generalizing s with
  | nil => cases h; rfl
  | cons e es ih =>
    obtain ⟨u, hu, ht⟩ := andThen_eq_next.mp h
    rw [ih ht]
    cases e with
    | data w => cases hu; rw [dataWords_cons_data, List.getLastD_cons]; rfl
    | leLo =>
      simp only [emit] at hu
      split at hu <;> cases hu
      rfl
    | clkHi => cases hu; rfl
    | clkLo => cases hu; rfl
    | leHi => cases hu; rfl
    | row r v => cases hu; rfl

/-- The last word a drain writes is that of column 15, plane 0 (42_protocol_engine.md rule R136). -/
theorem getLastD_dataWords_drainEvents (m : List FbCell) (row : Nat) (w : Word) :
    (dataWords (drainEvents m row)).getLastD w = fbRead m (wordAddr row 15 0) := by
  rw [dataWords_drainEvents, List.range_succ, List.flatMap_append]
  simp

/-! ### WRCFG -/

/-- The receivers after WRCFG: `F_ENWR` with `dout` on the pins, from LE at `le`, and then `F_CFG(value)`. -/
def wrcfgChips (cs : Chips) (le : Bool) (dout value : Word) : Chips :=
  let enabled := (clockWords (clockWords cs le [dout]).leRise true (List.replicate 15 dout)).execute .enWriteCfg
  (clockWords (clockWords enabled false ((List.range 6).map (configWord value))).leRise true
    ((List.range' 6 10).map (configWord value))).execute .writeCfg

/-- Everything WRCFG does, from any state: its two frames, one after the other. -/
theorem emitAll_wrcfg (v : Word) (s : State) : emitAll (wrcfgEvents v) s = .next { s with
    dout := configWord v 15
    dclk := false
    le := false
    trace := (wrcfgEvents v).reverse ++ s.trace
    chips := wrcfgChips s.chips s.le s.dout v } := by
  rw [wrcfgEvents, emitAll_append, emitAll_enableWrite, andThen_next, emitAll_config]
  simp [wrcfgChips]

/-- Settles O29: the state is the one WRCFG's two frames leave. -/
theorem wrcfgCompletes : Obligations.WrcfgCompletes := fun s v =>
  ⟨_, emitAll_wrcfg v s, rfl, rfl, (emitAll_next (emitAll_wrcfg v s)).pinTrace⟩

/-- The sixteen words of `F_CFG(value)`, six before and ten in the strobe, fill the shift registers with the value. -/
theorem shiftAll_configWords (sr v : Word) (c : Channel) :
    shiftAll (shiftAll sr (((List.range 6).map (configWord v)).map fun w => dataLine w c))
      (((List.range' 6 10).map (configWord v)).map fun w => dataLine w c) = v := by
  have hbits : (((List.range 6).map (configWord v)).map fun w => dataLine w c) ++
      (((List.range' 6 10).map (configWord v)).map fun w => dataLine w c) =
        (List.range 16).map fun i => dataLine (configWord v i) c := rfl
  rw [← shiftAll_append, hbits]
  refine shiftAll_sixteen _ _ _ (by simp) fun i hi => ?_
  simp [hi, dataLine_configWord]

theorem wrcfgChips_armed (cs : Chips) (le : Bool) (dout v : Word) : (wrcfgChips cs le dout v).armed = false := by
  simp [wrcfgChips]

theorem wrcfgChips_pwmResets (cs : Chips) (le : Bool) (dout v : Word) :
    (wrcfgChips cs le dout v).pwmResets = cs.pwmResets := by
  simp [wrcfgChips]

/-- `F_ENWR` arms the receivers, `F_CFG` fills their shift registers, and its strobe copies these. -/
theorem wrcfgChips_chip (cs : Chips) (le : Bool) (dout v : Word) (c : Channel) :
    (wrcfgChips cs le dout v).chip c = { cs.chip c with cfg := v, sr := v } := by
  simp [-List.map_map, wrcfgChips, shiftAll_configWords]

/-- Settles O32: WRCFG writes two registers of each receiver, and both hold the value. -/
theorem wrcfgConfiguresAllChips : Obligations.WrcfgConfiguresAllChips := fun s v =>
  ⟨_, emitAll_wrcfg v s, wrcfgChips_armed _ _ _ _, wrcfgChips_pwmResets _ _ _ _, fun c => by simp [wrcfgChips_chip]⟩

/-! ### GLATCH and PWMRST -/

/-- Settles O36: each is one frame without a word, and its strobe's command is Global Latch or the PWM reset. -/
theorem glatchAndPwmrstComplete : Obligations.GlatchAndPwmrstComplete := fun s =>
  ⟨⟨_, emitAll_glatch s, rfl, (emitAll_next (emitAll_glatch s)).pinTrace, frame_glatch.length,
      frame_glatch.frames.strobeCounts, by simp, by simp, fun c => by simp⟩,
    ⟨_, emitAll_pwmrst s, rfl, (emitAll_next (emitAll_pwmrst s)).pinTrace, frame_pwmrst.length,
      frame_pwmrst.frames.strobeCounts, by simp, by simp, fun c => by simp⟩⟩

/-- Sixteen pulses with one word in DOUT fill a shift register with the data line's level. -/
theorem shiftAll_replicate (sr : Word) (b : Bool) {m n : Nat} (h : m + n = 16) :
    shiftAll (shiftAll sr (List.replicate m b)) (List.replicate n b) = if b = true then 0xFFFF else 0x0000 := by
  rw [← shiftAll_append, List.replicate_append_replicate, h]
  refine shiftAll_sixteen _ _ _ List.length_replicate fun i hi => ?_
  rw [List.getD_replicate _ hi]
  cases b with
  | false => exact BitVec.getLsbD_zero.symm
  | true => exact (BitVec.getLsbD_allOnes.trans (decide_eq_true (by omega))).symm

/-! ### DRAIN -/

/-- A bit of an `or` of words is set where it is set in one of them. -/
theorem foldl_or_getLsbD (f : Nat → Word) (l : List Nat) (acc : Word) (n : Nat) :
    (l.foldl (fun acc i => acc ||| f i) acc).getLsbD n = (acc.getLsbD n || l.any fun i => (f i).getLsbD n) := by
  induction l generalizing acc with
  | nil => simp
  | cons i l ih => rw [List.foldl_cons, ih, BitVec.getLsbD_or, List.any_cons, Bool.or_assoc]

/-- Bit `n` of `W(g, c)` is the channel's bit of the word of column `15 - n` (42_protocol_engine.md rule R155 (b)). -/
theorem drainedWord_getLsbD (s : State) (row g : Nat) (c : Channel) {n : Nat} (hn : n < 16) :
    (drainedWord s row g c).getLsbD n = dataLine (s.word row (15 - n) (15 - g)) c := by
  have hbit (i : Nat) := bitOf_shiftLeft_getLsbD (s.word row i (15 - g)) (dataBit c) (show 15 - i < 16 by omega) n
  simp only [drainedWord, foldl_or_getLsbD, hbit, BitVec.ofNat_eq_ofNat, BitVec.getLsbD_zero, Bool.false_or, dataLine]
  rw [Bool.eq_iff_iff, List.any_eq_true]
  constructor
  · rintro ⟨i, hi, h⟩
    rw [List.mem_range] at hi
    by_cases hni : n = 15 - i
    · rwa [if_pos hni, show i = 15 - n by omega] at h
    · simp [hni] at h
  · intro h
    exact ⟨15 - n, List.mem_range.mpr (by omega), by rwa [if_pos (by omega)]⟩

/-- The sixteen words of a group, fifteen before and one in the strobe, fill a shift register with `W(g, c)`. -/
theorem shiftAll_groupWords (sr : Word) (s : State) (row g : Nat) (c : Channel) :
    shiftAll (shiftAll sr (((List.range 15).map fun i => fbRead s.fb (wordAddr row i (15 - g))).map fun w => dataLine w c))
      [dataLine (fbRead s.fb (wordAddr row 15 (15 - g))) c] = drainedWord s row g c := by
  have hbits : (((List.range 15).map fun i => fbRead s.fb (wordAddr row i (15 - g))).map fun w => dataLine w c) ++
      [dataLine (fbRead s.fb (wordAddr row 15 (15 - g))) c] =
        (List.range 16).map fun i => dataLine (s.word row i (15 - g)) c := rfl
  rw [← shiftAll_append, hbits]
  refine shiftAll_sixteen _ _ _ (by simp) fun i hi => ?_
  rw [drainedWord_getLsbD _ _ _ _ (by omega), show 15 - (15 - i) = i by omega]
  simp [hi]

/-- The transfer groups latch one word each into every receiver, after those latched before (rules R136, R141). -/
theorem emitAll_groups_chips {s t u : State} {row : Nat} {gs : List Nat}
    (h : emitAll (gs.flatMap (groupEvents s.fb row)) t = .next u) :
    u.chips.pwmResets = t.chips.pwmResets ∧ ∀ c, (u.chips.chip c).cfg = (t.chips.chip c).cfg ∧
      (u.chips.chip c).latched = (t.chips.chip c).latched ++ gs.map fun g => drainedWord s row g c := by
  induction gs generalizing t with
  | nil => cases h; exact ⟨rfl, fun c => ⟨rfl, by simp⟩⟩
  | cons g gs ih =>
    rw [List.flatMap_cons, emitAll_append, emitAll_group, andThen_next] at h
    obtain ⟨hresets, hchip⟩ := ih h
    refine ⟨by simpa using hresets, fun c => ?_⟩
    obtain ⟨hcfg, hlatched⟩ := hchip c
    exact ⟨by simpa using hcfg, by simpa [-List.map_map, shiftAll_groupWords] using hlatched⟩

/-- What a drain does to the receivers: they show what was latched before and the row's sixteen words (rules R136 to R138). -/
theorem emitAll_drain_chips {s t u : State} {row : Nat} (h : emitAll (drainEvents s.fb row) t = .next u) :
    u.chips.armed = false ∧ u.chips.pwmResets = t.chips.pwmResets + 1 ∧
      ∀ c, u.chips.chip c =
        { sr := if dataLine u.dout c = true then 0xFFFF else 0x0000
          cfg := (t.chips.chip c).cfg
          latched := []
          active := (t.chips.chip c).latched ++ (List.range 16).map fun g => drainedWord s row g c } := by
  obtain ⟨v, hv⟩ := emitAll_groups s.fb row (List.range 16) t
  obtain ⟨hresets, hchip⟩ := emitAll_groups_chips hv
  rw [drainEvents, emitAll_append, emitAll_append, hv, andThen_next, emitAll_glatch, andThen_next, emitAll_pwmrst] at h
  obtain rfl := Host.Outcome.next.inj h
  refine ⟨by simp, by simp [hresets], fun c => ?_⟩
  obtain ⟨hcfg, hlatched⟩ := hchip c
  simp [-List.reduceReplicate, hcfg, hlatched, shiftAll_replicate]

/-- Settles O33: a drain moves no row switch, its last word stays in DOUT, and PWMRST leaves the other pins low. -/
theorem drainCompletes : Obligations.DrainCompletes := by
  intro s row hrow
  obtain ⟨t, ht, hframe⟩ := drainRow_next hrow
  obtain ⟨-, hevents⟩ := drainRow_eq_next.mp ht
  obtain ⟨⟨hle, hdclk⟩, -⟩ := idle_of_emitAll_drain hevents
  have hwhole := emitAll_eq hevents (noRowEvent_drain _ _)
  rw [hle, hdclk, ← hframe.trace] at hwhole
  exact ⟨t, ht, hwhole, (emitAll_dout hevents).trans (getLastD_dataWords_drainEvents _ _ _), hframe.pinTrace⟩

/-- Settles O35: with nothing latched before, what the receivers show are the row's words alone. -/
theorem drainShowsTheRow : Obligations.DrainShowsTheRow := by
  intro s row hrow hempty
  obtain ⟨t, ht, -, hdout, -⟩ := drainCompletes s row hrow
  obtain ⟨-, hevents⟩ := drainRow_eq_next.mp ht
  obtain ⟨harmed, hresets, hchip⟩ := emitAll_drain_chips hevents
  refine ⟨t, ht, harmed, hresets, fun c => ?_⟩
  rw [hchip c, hempty c, hdout]
  exact ⟨rfl, rfl, rfl, rfl⟩

end Sys2Proof.Machine
end

section
/-! SUPPORT. The scheduler (43_row_scheduler.md rules R170 to R176): the state after a TICK, said once, the rows it lights, and
that every step lights at most the row before the cursor. -/

namespace Sys2Proof.Machine

/-! ### TICK -/

/-- Settles O40: a tick event that is not enabled is not taken. -/
theorem tickIgnoredBeforeInit : Obligations.TickIgnoredBeforeInit := fun _ hen => takeTick_off tickBody hen

/-- The state after an enabled TICK, with the receivers as its drain left them (43_row_scheduler.md rule R170). -/
def afterTick (s : State) (chips : Chips) : State :=
  { s with
    cursor := nextRow s
    dout := s.word s.cursor 15 0
    dclk := false
    le := false
    rowEn := (s.rowEn.set (prevRow s) false).set s.cursor true
    trace := (tickEvents s.params s.fb s.cursor).reverse ++ s.trace
    chips := chips }

/-- An enabled TICK completes, and its receivers are those its drain left. -/
theorem exec_tick_of_enabled {s : State} (hen : s.tickEn = true) (hcursor : CursorOk s) :
    ∃ u, emitAll (drainEvents s.fb s.cursor) (setRow (prevRow s) false s) = .next u ∧
      exec .tick s = .next (afterTick s u.chips) := by
  obtain ⟨u, hu, -⟩ := drainRow_next (s := setRow (prevRow s) false s) hcursor
  obtain ⟨-, hevents⟩ := drainRow_eq_next.mp hu
  obtain ⟨⟨hle, hdclk⟩, -⟩ := idle_of_emitAll_drain hevents
  have hdout : u.dout = s.word s.cursor 15 0 := (emitAll_dout hevents).trans (getLastD_dataWords_drainEvents _ _ _)
  have hwhole := emitAll_eq hevents (noRowEvent_drain _ _)
  rw [hle, hdclk, hdout] at hwhole
  refine ⟨u, hevents, (takeTick_on tickBody hen).trans (tickBody_eq_next.mpr ⟨u, hu, ?_⟩)⟩
  rw [hwhole]
  simp [afterTick, advanceCursor, setRow, record, tickEvents, prevRow, nextRow]

theorem pinTrace_afterTick (s : State) (chips : Chips) :
    (afterTick s chips).pinTrace = s.pinTrace ++ tickEvents s.params s.fb s.cursor := by
  simp [State.pinTrace, afterTick]

/-- A drain and the events of two row switches. -/
theorem length_tickEvents (p : Params) (m : List FbCell) (cur : Nat) : (tickEvents p m cur).length = 870 := by
  obtain ⟨-, -, -, -, -, hdrain, -⟩ := drainSendsWholeRow m cur
  simp [tickEvents, hdrain]

/-- After a TICK the cursor's row is on, the row before it off where it is another, and every other as it was. -/
theorem rowOn_afterTick {s : State} (hcursor : s.cursor < s.rowEn.length) (chips : Chips) (r : Nat) :
    (afterTick s chips).rowOn r = if r = s.cursor then true else s.rowOn r && decide (r ≠ prevRow s) := by
  have h : (afterTick s chips).rowOn r = (setRow s.cursor true (setRow (prevRow s) false s)).rowOn r := rfl
  rw [h, rowOn_setRow, rowOn_setRow_false]
  simp [hcursor]

/-- Settles O39: the four steps, read off the state after a TICK. -/
theorem tickRunsTheFourSteps : Obligations.TickRunsTheFourSteps := by
  intro s hen hcursor hlength
  obtain ⟨u, -, htick⟩ := exec_tick_of_enabled hen hcursor
  have hrow := rowOn_afterTick (hlength ▸ hcursor : s.cursor < s.rowEn.length) u.chips
  refine ⟨_, htick, rfl, pinTrace_afterTick s _, length_tickEvents _ _ _, ?_, fun hprev => ?_, fun r hr hprev => ?_⟩
  · simp [hrow]
  · simp [hrow, hprev]
  · simp [hrow, hr, hprev]

/-- Settles O43: TICK's first step leaves every row off, and its drain finds nothing latched. -/
theorem tickShowsTheCursorsRow : Obligations.TickShowsTheCursorsRow := by
  intro s hen hcursor hlit hchips
  obtain ⟨u, hdrain, htick⟩ := exec_tick_of_enabled hen hcursor
  obtain ⟨-, -, hchip⟩ := emitAll_drain_chips hdrain
  refine ⟨_, htick, fun r => ?_, fun c => ?_⟩
  · have hoff := rowsOff_setRow_prevRow hlit r
    rw [rowOn_setRow_false] at hoff
    rw [rowOn_afterTick (hlit.1 ▸ hcursor), hoff]
    simp
  · have hactive := congrArg Chip.active (hchip c)
    rwa [setRow_chips, hchips.2 c, List.nil_append] at hactive

/-! ### Runs of TICKs -/

/-- What a run of TICKs does, by induction on their number (43_row_scheduler.md rule R172). -/
theorem ticks_of_enabled (k : Nat) {s : State} (hen : s.tickEn = true) (hcursor : CursorOk s) :
    ∃ t, ticks k s = .next t ∧ t.cursor = (s.cursor + k) % s.params.rowCount ∧
      t.pinTrace = s.pinTrace ++
        (List.range k).flatMap fun n => tickEvents s.params s.fb ((s.cursor + n) % s.params.rowCount) := by
  induction k generalizing s with
  | zero => exact ⟨s, rfl, (Nat.mod_eq_of_lt hcursor).symm, by simp⟩
  | succ k ih =>
    obtain ⟨u, -, htick⟩ := exec_tick_of_enabled hen hcursor
    obtain ⟨t, ht, htcursor, httrace⟩ := ih (s := afterTick s u.chips) hen (nextRow_lt s)
    have hplace (n : Nat) : (nextRow s + n) % s.params.rowCount = (s.cursor + (n + 1)) % s.params.rowCount := by
      rw [nextRow, Nat.mod_add_mod, Nat.add_assoc, Nat.add_comm 1]
    refine ⟨t, by rw [ticks, htick, andThen_next, ht], htcursor.trans (hplace k), ?_⟩
    rw [httrace, pinTrace_afterTick, List.append_assoc, List.range_succ_eq_map, List.flatMap_cons, List.flatMap_map,
      Nat.add_zero, Nat.mod_eq_of_lt hcursor]
    simp only [← hplace]
    rfl

/-- The rows from row `c` on, with wraparound, are all rows, each once. -/
theorem map_add_mod_range_perm {c n : Nat} : ((List.range n).map fun k => (c + k) % n).Perm (List.range n) := by
  have hrotate : ((List.range n).map fun k => (c + k) % n) = (List.range n).rotate c :=
    List.ext_getElem (by simp) fun k _ _ => by simp [List.getElem_rotate, Nat.add_comm]
  exact hrotate ▸ List.rotate_perm _ _

/-- INIT leaves the row switches as its first line does, and the cursor at 0 (44_color_api.md rule R183). -/
theorem init_eq_next {s t : State} (h : exec .init s = .next t) :
    t.params = s.params ∧ t.cursor = 0 ∧ t.rowEn = (allRowsOff s).rowEn := by
  rw [exec, execInit] at h
  obtain ⟨u, hu, ht⟩ := andThen_eq_next.mp h
  obtain rfl := Host.Outcome.next.inj ht
  rw [emitAll_eq hu (noRowEvent_wrcfg _), allRowsOff_eq s]
  exact ⟨rfl, rfl, rfl⟩

/-- Settles O41: the rows of a run of TICKs go up from the cursor with wraparound, and TICK and INIT alone write the cursor. -/
theorem ticksCycleThroughTheRows : Obligations.TicksCycleThroughTheRows := by
  refine ⟨fun s k hen hcursor => ticks_of_enabled k hen hcursor, fun s t hen hcursor h => ?_,
    fun s _ => map_add_mod_range_perm, fun i s t htick hinit h => ?_, fun s t h => ?_⟩
  · obtain ⟨u, hu, hback, -⟩ := ticks_of_enabled s.params.rowCount hen hcursor
    obtain rfl := Host.Outcome.next.inj (h.symm.trans hu)
    rw [hback, Nat.add_mod_right, Nat.mod_eq_of_lt hcursor]
  · obtain ⟨hwriters, -⟩ := everyRegisterHasItsWriters i s t h
    exact by_contra fun hne => (hwriters hne).elim htick hinit
  · obtain ⟨-, hcursor, -⟩ := init_eq_next h
    exact hcursor

/-! ### ROW_SET -/

/-- Settles O38: one switch and one event, whatever level the pins have. -/
theorem rowSetWritesOneSwitch : Obligations.RowSetWritesOneSwitch := by
  intro s r v hr _ _
  refine ⟨_, rowSet_eq_next.mpr ⟨hr, rfl⟩, rfl, fun hlength => ?_, fun r' hr' => ?_⟩
  · simp [rowOn_setRow, hlength, hr]
  · simp [rowOn_setRow, hr']

/-! ### The lit row -/

/-- No row is lit or exactly the one before the cursor, which names a row (43_row_scheduler.md rule R174). -/
def RowsOk (s : State) : Prop := LitRowOk s ∧ CursorOk s

/-- The lit row is a matter of the parameters, the cursor and the row switches only. -/
theorem RowsOk.congr {s t : State} (h : RowsOk s) (hparams : t.params = s.params) (hcursor : t.cursor = s.cursor)
    (hrowEn : t.rowEn = s.rowEn) : RowsOk t := by
  simpa only [RowsOk, LitRowOk, CursorOk, State.rowOn, prevRow, hparams, hcursor, hrowEn] using h

theorem rowsOk_of_rowsOff {s : State} (hlength : s.rowEn.length = s.params.rowCount) (hoff : ∀ r, s.rowOn r = false)
    (hcursor : s.cursor = 0) : RowsOk s :=
  ⟨litRowOk_of_rowsOff hlength hoff, by rw [CursorOk, hcursor]; exact rowCount_pos _⟩

theorem rowsOk_resetWith (p : Params) (cfg : Channel → Word) : RowsOk (State.resetWith p cfg) :=
  rowsOk_of_rowsOff List.length_replicate (rowOn_resetWith p cfg) rfl

/-- TICK's first step puts every row off, its third lights the cursor's, and its fourth makes that the row before the cursor. -/
theorem rowsOk_afterTick {s : State} (h : RowsOk s) (chips : Chips) : RowsOk (afterTick s chips) := by
  obtain ⟨hlit, hcursor⟩ := h
  have hlength : (setRow (prevRow s) false s).rowEn.length = s.params.rowCount := by simpa using hlit.1
  exact ⟨litRowOk_advanceCursor (s := setRow (prevRow s) false s) hcursor hlength (rowsOff_setRow_prevRow hlit),
    nextRow_lt s⟩

theorem tick_keeps_rowsOk {s t : State} (h : exec .tick s = .next t) (hs : RowsOk s) : RowsOk t := by
  by_cases hen : s.tickEn = true
  · obtain ⟨u, -, htick⟩ := exec_tick_of_enabled hen hs.2
    exact Host.Outcome.next.inj (htick.symm.trans h) ▸ rowsOk_afterTick hs u.chips
  · rw [tickIgnoredBeforeInit s (eq_false_of_ne_true hen)] at h
    exact Host.Outcome.next.inj h ▸ hs

theorem init_keeps_rowsOk {s t : State} (h : exec .init s = .next t) (hs : RowsOk s) : RowsOk t := by
  obtain ⟨hparams, hcursor, hrowEn⟩ := init_eq_next h
  obtain ⟨⟨hswitches, -⟩, -⟩ := hs
  obtain ⟨hlength, hoff⟩ := rowsOff_allRowsOff hswitches
  refine rowsOk_of_rowsOff (by rw [hrowEn, hparams, hlength]) (fun r => ?_) hcursor
  rw [State.rowOn, hrowEn]
  exact hoff r

/-- ROW_SET has no command word (30_encoding.md rule R85). -/
theorem decode_ne_rowSet (w : CommandWord) (r : BitVec 8) (v : Bool) : decode w ≠ .ok (.rowSet r v) := by
  intro h
  simpa [Encodes] using decode_cases h

/-- Every operation of the host or the timer keeps the lit row: only TICK and INIT write its registers. -/
theorem exec_keeps_rowsOk {i : Instr} {s t : State} (hi : i = .tick ∨ ∃ w, decode w = .ok i) (h : exec i s = .next t)
    (hs : RowsOk s) : RowsOk t := by
  by_cases htick : i = .tick
  · exact tick_keeps_rowsOk (htick ▸ h) hs
  by_cases hinit : i = .init
  · exact init_keeps_rowsOk (hinit ▸ h) hs
  obtain ⟨hcursor, -, -, hrowEn, -⟩ := everyRegisterHasItsWriters i s t h
  refine hs.congr (exec_params h) (by_contra fun hne => ?_) (by_contra fun hne => ?_)
  · exact (hcursor hne).elim htick hinit
  · obtain h | h | ⟨r, v, rfl⟩ := hrowEn hne
    · exact htick h
    · exact hinit h
    · obtain ⟨w, hw⟩ := hi.resolve_left htick
      exact decode_ne_rowSet w r v hw

theorem runFor_keeps_rowsOk (k : Nat) {s : State} (hs : RowsOk s) : RowsOk (runFor k s) := by
  rw [runFor_eq]
  exact hs

theorem Move.keeps_rowsOk {s t : State} (h : Move s t) (hs : RowsOk s) : RowsOk t := by
  cases h with
  | goOn k => exact runFor_keeps_rowsOk k hs
  | start i j k _ => exact runFor_keeps_rowsOk k (s := { s with busy := some j }) hs
  | perform i t hi h => exact exec_keeps_rowsOk hi h hs
  | setLevels indicator dirty => exact hs
  | reset => exact rowsOk_resetWith s.params fun c => (s.chips.chip c).cfg

/-- Settles O42: the rows are off at reset, and a step is a move, which keeps the lit row the one before the cursor. -/
theorem atMostTheActiveRowIsLit : Obligations.AtMostTheActiveRowIsLit := by
  refine ⟨rowsOk_resetWith, fun s t hlit hcursor h => ?_⟩
  obtain ⟨rest, hmove⟩ := step_move h
  exact hmove.keeps_rowsOk ⟨hlit, hcursor⟩

end Sys2Proof.Machine
end

section
/-! SUPPORT. The Color API (44_color_api.md rules R180 to R185): the host's own events, the words SET_COLOR and SET_COLOR_ALL leave in
the frame buffer, the configuration value SET_GAIN sends, and the state after INIT, said once. -/

namespace Sys2Proof.Machine

/-! ### The host's events and waiting -/

/-- With no operation in progress there is nothing to bring to an end. -/
theorem finishJob_of_idle {s : State} (h : s.busy = none) : finishJob s = s := by
  rw [finishJob]
  cases s.params.rowCount * 256 <;> simp only [runFor, h]

/-- Settles O10: the host's two events write one bit each, and a block with nothing to do ends an operation that is not there. -/
theorem hostEventsTouchTheirBitOnly : Obligations.HostEventsTouchTheirBitOnly := by
  refine ⟨fun s rest hstim => ?_, fun s v rest hstim => ?_, fun s hstim hbusy => ?_⟩
  · simp only [step, moveNext, hstim, clearDirtyFlag]
  · simp only [step, moveNext, hstim]
  · simp only [step, moveNext, hstim, finishJob_of_idle hbusy]

/-! ### SET_COLOR -/

/-- Settles O44: the operation is one ENCODE of the colour the override leaves, and DIRTY. -/
theorem setColorEncodesTheLed : Obligations.SetColorEncodesTheLed := by
  intro s index r g b pos hpos
  refine ⟨_, execSetColor_of_some hpos r g b, ?_, fun k hk => ?_, fun a ha => ?_⟩
  · rw [encodeSlot_eq]
    rfl
  · rw [State.word, setDirty_fb, fbRead_encodeSlot_same _ s hk, override]
    split <;> rfl
  · rw [setDirty_fb, fbRead_encodeSlot, if_neg ha]

/-- Settles O45: the position table has no entry there. -/
theorem setColorBeyondLedCountIgnored : Obligations.SetColorBeyondLedCountIgnored := fun _ _ r g b hindex =>
  execSetColor_of_none (List.getElem?_eq_none hindex) r g b

/-! ### SET_COLOR_ALL -/

/-- The word of plane `k` of a slot that shows the colour `c` (30_encoding.md rule R86). -/
def colorWord (p : Params) (c : Color) (k : Nat) : Word := planeWord (p.gammaAt c.1) (p.gammaAt c.2.1) (p.gammaAt c.2.2) k

/-- Slot number `slot` in row-major order begins at a multiple of 16 (20_memory.md rule R51). -/
theorem wordAddr_of_slot (slot : Nat) : wordAddr (slot / 16) (slot % 16) 0 = slot * 16 := by
  unfold wordAddr
  omega

/-- A word of the frame buffer after the ENCODEs of `n` slots from `slot` on: its slot's new colour in those slots, and what it was
outside them (44_color_api.md rule R181). -/
theorem fbRead_encodeSlots (c : Color) (ind : Bool) (slot n : Nat) (s : State) (a : Nat) :
    fbRead (encodeSlots c ind slot n s).fb a =
      if slot * 16 ≤ a ∧ a < (slot + n) * 16 then
        colorWord s.params (slotColor s.params (a / 16 / 16) (a / 16 % 16) c ind) (a % 16)
      else fbRead s.fb a := by
  induction n generalizing slot s with
  | zero => rw [if_neg (by omega), encodeSlots]
  | succ n ih =>
    rw [encodeSlots, ih, encodeSlot_params, fbRead_encodeSlot, wordAddr_of_slot]
    by_cases hthis : slot * 16 ≤ a ∧ a < slot * 16 + 16
    · obtain rfl : slot = a / 16 := by omega
      have hplane : a - a / 16 * 16 = a % 16 := by omega
      rw [if_neg (by omega), if_pos hthis, if_pos (by omega), hplane, colorWord]
    · rw [if_neg hthis]
      exact if_congr (by omega) rfl rfl

/-- After SET_COLOR_ALL's ENCODEs every slot shows its colour. -/
theorem fbRead_encodeSlots_all {s : State} (c : Color) (ind : Bool) {row col k : Nat} (hrow : row < s.params.rowCount)
    (hcol : col < 16) (hk : k < 16) :
    fbRead (encodeSlots c ind 0 (s.params.rowCount * 16) s).fb (wordAddr row col k) =
      colorWord s.params (slotColor s.params row col c ind) k := by
  have hin := wordAddr_lt hrow hcol hk
  have hplace : wordAddr row col k / 16 / 16 = row ∧ wordAddr row col k / 16 % 16 = col ∧ wordAddr row col k % 16 = k := by
    unfold wordAddr
    omega
  obtain ⟨hrow', hcol', hplane⟩ := hplace
  rw [fbRead_encodeSlots, if_pos (by omega), hrow', hcol', hplane]

/-- The indicator's slot is the one the position table gives its LED. -/
theorem indicatorPos_eq_iff {p : Params} {row col : Nat} :
    (indicatorPos p).map (fun q => (q.row.toNat, q.col.toNat)) = some (row, col) ↔
      ∃ i pos, p.indicatorIndex = some i ∧ p.ledPos[i]? = some pos ∧ pos.row.toNat = row ∧ pos.col.toNat = col := by
  simp only [indicatorPos, Option.map_eq_some_iff, Option.bind_eq_some_iff, Prod.mk.injEq]
  exact ⟨fun ⟨pos, ⟨i, hi, hpos⟩, hplace⟩ => ⟨i, pos, hi, hpos, hplace⟩,
    fun ⟨i, pos, hi, hpos, hplace⟩ => ⟨pos, ⟨i, hi, hpos⟩, hplace⟩⟩

/-- Settles O46: the ENCODEs go through every slot, and the override is asked at the indicator's. -/
theorem setColorAllEncodesEverySlot : Obligations.SetColorAllEncodesEverySlot := by
  intro s r g b
  refine ⟨_, setColorAll_eq_next.mpr rfl, by rw [encodeSlots_eq]; rfl, fun row hrow col hcol k hk => ?_, fun a ha => ?_⟩
  · have hword := fbRead_encodeSlots_all (r, g, b) s.indicator hrow hcol hk
    rw [← indicatorPos_eq_iff, State.word, setDirty_fb, hword, slotColor]
    exact ⟨fun hoverride => by rw [if_pos hoverride]; rfl, fun hplain => by rw [if_neg hplain]; rfl⟩
  · rw [setDirty_fb, fbRead_encodeSlots, if_neg (by omega)]

/-! ### SET_GAIN -/

/-- The value SET_GAIN sends, bit by bit: the gain in the gain field, `CFG_DEFAULT` outside it (30_encoding.md rules R82, R93). -/
theorem gainValue_getLsbD (p : Params) (gain : BitVec 6) {n : Nat} (hn : n < 16) : (gainValue p gain).getLsbD n =
    if p.gainLsb.val ≤ n ∧ n < p.gainLsb.val + 6 then gain.getLsbD (n - p.gainLsb.val) else p.cfgDefault.getLsbD n := by
  have hmask : 0x3F#16 = (BitVec.allOnes 6).setWidth 16 := by decide
  simp only [gainValue, gainMask, hmask, BitVec.getLsbD_or, BitVec.getLsbD_and, BitVec.getLsbD_not, BitVec.getLsbD_shiftLeft,
    BitVec.getLsbD_setWidth, BitVec.getLsbD_allOnes, hn]
  by_cases hbelow : n < p.gainLsb.val
  · simp [hbelow]
  · obtain hfield | habove := Nat.lt_or_ge (n - p.gainLsb.val) 6
    · simp [hbelow, hfield, show p.gainLsb.val ≤ n by omega, show n < p.gainLsb.val + 6 by omega,
        show n - p.gainLsb.val < 16 by omega]
    · simp [habove, show ¬n < p.gainLsb.val + 6 by omega]

/-- The gain field of the value SET_GAIN sends is the gain asked for. -/
theorem gainField_gainValue (p : Params) (gain : BitVec 6) : p.gainField (gainValue p gain) = gain := by
  refine BitVec.eq_of_getLsbD_eq fun i hi => ?_
  rw [Params.gainField, BitVec.getLsbD_extractLsb', gainValue_getLsbD p gain (by omega), if_pos (by omega)]
  simp [hi]

/-- `CFG_DEFAULT` with its own gain put in is `CFG_DEFAULT` (92_eei_decisions.md D23). -/
theorem gainValue_defaultGain (p : Params) : gainValue p p.defaultGain = p.cfgDefault := by
  refine BitVec.eq_of_getLsbD_eq fun n hn => ?_
  rw [gainValue_getLsbD p _ hn]
  split
  next hfield =>
    have hplace : n - p.gainLsb.val < 6 := by omega
    rw [Params.defaultGain, Params.gainField, BitVec.getLsbD_extractLsb', Nat.add_sub_cancel' hfield.1]
    simp [hplace]
  next => rfl

/-- A bit outside the gain field is `CFG_DEFAULT`'s, the enable bit among them. -/
theorem gainValue_enableBit {p : Params} (hp : p.Valid) (gain : BitVec 6) :
    (gainValue p gain).getLsbD p.enableBit.val = true := by
  obtain ⟨-, -, -, -, -, henabled, houtside⟩ := hp
  rw [gainValue_getLsbD p gain p.enableBit.isLt, if_neg (by omega), henabled]

/-- SET_GAIN is a WRCFG (44_color_api.md rule R182). -/
theorem exec_setGain (gain : BitVec 6) (s : State) : exec (.setGain gain) s = exec (.wrcfg (gainValue s.params gain)) s := rfl

/-- Settles O47: what WRCFG leaves, for the value with the gain put in. -/
theorem setGainSendsDefaultWithGain : Obligations.SetGainSendsDefaultWithGain := by
  intro s gain
  have hwrcfg := emitAll_wrcfg (gainValue s.params gain) s
  refine ⟨gainValue s.params gain, fun n hn => gainValue_getLsbD s.params gain hn, exec_setGain gain s, _, hwrcfg,
    (emitAll_next hwrcfg).pinTrace, rfl, fun c => ?_⟩
  rw [wrcfgChips_chip]

/-! ### INIT -/

/-- INIT's first line, from any state: the row switches there are go off (44_color_api.md rule R183). -/
theorem rowOn_allRowsOff (s : State) (r : Nat) :
    (allRowsOff s).rowOn r = (s.rowOn r && decide (s.params.rowCount ≤ r)) := by
  have hrows (rs : List Nat) (s : State) :
      (rs.foldl (fun t r => setRow r false t) s).rowOn r = (s.rowOn r && decide (r ∉ rs)) := by
    induction rs generalizing s with
    | nil => simp
    | cons x rs ih => rw [List.foldl_cons, ih, rowOn_setRow_false]; simp [Bool.and_assoc]
  rw [allRowsOff, hrows]
  simp

/-- INIT's events: `ROW(r, 0)` for every row, ascending, and WRCFG's (44_color_api.md rule R183). -/
def initEvents (p : Params) : List PinEvent :=
  (List.range p.rowCount).map (fun r => PinEvent.row r false) ++ wrcfgEvents p.cfgDefault

/-- The state after INIT (44_color_api.md rule R183). -/
def afterInit (s : State) : State :=
  { s with
    cursor := 0
    tickEn := true
    dout := configWord s.params.cfgDefault 15
    dclk := false
    le := false
    rowEn := (allRowsOff s).rowEn
    trace := (initEvents s.params).reverse ++ s.trace
    chips := wrcfgChips s.chips s.le s.dout s.params.cfgDefault }

/-- Everything INIT does, from any state. -/
theorem exec_init (s : State) : exec .init s = .next (afterInit s) := by
  have htrace : (allRowsOff s).trace = _ := (emitAll_next (emitAll_rowsOff s)).trace
  rw [exec, execInit, writeConfig, emitAll_wrcfg, andThen_next, allRowsOff_eq, htrace]
  simp [afterInit, setTickEn, initEvents]

/-- INIT's events are one for each row and the 84 of a WRCFG (70_reset_and_hazards.md rule R260). -/
theorem length_initEvents (p : Params) : (initEvents p).length = p.rowCount + 84 := by
  obtain ⟨-, -, -, -, -, hlength, -⟩ := wrcfgHasFixedSize p.cfgDefault
  simp [initEvents, hlength]

theorem pinTrace_afterInit (s : State) : (afterInit s).pinTrace = s.pinTrace ++ initEvents s.params := by
  simp [State.pinTrace, afterInit]

/-- INIT's WRCFG puts `CFG_DEFAULT` in every receiver. -/
theorem cfg_afterInit (s : State) (c : Channel) : ((afterInit s).chips.chip c).cfg = s.params.cfgDefault := by
  rw [afterInit, wrcfgChips_chip]

/-- Settles O48: read off the state after INIT. -/
theorem initStartsTheScheduler : Obligations.InitStartsTheScheduler := by
  intro s
  refine ⟨_, exec_init s, rfl, fun r hr => ?_, ?_, ?_, cfg_afterInit s⟩
  · have hoff : (afterInit s).rowOn r = (allRowsOff s).rowOn r := rfl
    rw [hoff, rowOn_allRowsOff]
    simp [hr]
  · rw [pinTrace_afterInit, initEvents, List.append_assoc]
  · rw [pinTrace_afterInit, List.length_append, length_initEvents, Nat.add_assoc]

/-- Settles O60: INIT sends `CFG_DEFAULT`, whose enable bit is set, and SET_GAIN changes only the gain field, which the enable bit
is not in. -/
theorem configurationKeepsTheEnableBit : Obligations.ConfigurationKeepsTheEnableBit := by
  intro s hvalid
  refine ⟨⟨_, exec_init s, fun c => ?_⟩, fun gain => ⟨_, emitAll_wrcfg (gainValue s.params gain) s, fun c => ?_⟩, ?_⟩
  · obtain ⟨-, -, -, -, -, henabled, -⟩ := hvalid
    rw [cfg_afterInit]
    exact ⟨henabled, rfl⟩
  · rw [wrcfgChips_chip]
    exact ⟨gainValue_enableBit hvalid gain, gainField_gainValue s.params gain⟩
  · rw [exec_setGain, gainValue_defaultGain]

end Sys2Proof.Machine
end

section
/-! SUPPORT. How a step can end (60_exceptions.md rules R201, R203, R210, R211): the counterpart of `Move` that says where it stops.
A step goes on, or it is the fault OVERRUN, or the command word at the port is refused. -/

namespace Sys2Proof.Machine

/-! ### The tick events -/

/-- Settles O8: the event is taken off, and TICK is executed on the rest. -/
theorem stepServesTick : Obligations.StepServesTick := by
  intro s rest hstim
  simp only [step, moveNext, hstim]

/-- Settles O9: the event is taken off, and what is left of the step asks only whether ticks are enabled. -/
theorem tickInsideTickOverruns : Obligations.TickInsideTickOverruns := by
  intro s rest hstim
  simp only [step, moveNext, hstim, tickDuringTick]

/-- A TICK never stops: its row is the cursor's, which there is (43_row_scheduler.md rules R170, R175). -/
theorem exec_tick_next {s : State} (hcursor : CursorOk s) : ∃ t, exec .tick s = .next t := by
  by_cases hen : s.tickEn = true
  · obtain ⟨u, -, htick⟩ := exec_tick_of_enabled hen hcursor
    exact ⟨_, htick⟩
  · exact ⟨s, tickIgnoredBeforeInit s (eq_false_of_ne_true hen)⟩

/-! ### The command word at the port -/

/-- How performing a command word can end: in a next state, or refused, for a reserved opcode (30_encoding.md rule R89 (b)) or for a
row there is not (20_memory.md rule R54). -/
inductive CommandEnds (p : Params) (w : CommandWord) : Result → Prop where
  | next (t : State) : CommandEnds p w (.next t)
  | reservedOp (hdec : decode w = .error (.reservedOp (opField w))) : CommandEnds p w (.refused .reservedOp)
  | outOfRange (row : BitVec 8) (hrow : p.rowCount ≤ row.toNat)
      (hdec : decode w = .ok (.drain row) ∨ ∃ col r g b, decode w = .ok (.encode row col r g b)) :
      CommandEnds p w (.refused .outOfRange)

/-- An ENCODE stops only at its row check. -/
theorem exec_encode_ends {w : CommandWord} {row : BitVec 8} {col : BitVec 4} {r g b : Level}
    (hdec : decode w = .ok (.encode row col r g b)) (s : State) : CommandEnds s.params w (exec (.encode row col r g b) s) := by
  by_cases hrow : row.toNat < s.params.rowCount
  · rw [encode_eq_next.mpr ⟨hrow, rfl⟩]
    exact .next _
  · rw [exec, execEncode, checkRow_ge _ hrow]
    exact .outOfRange row (Nat.le_of_not_lt hrow) (.inr ⟨col, r, g, b, hdec⟩)

/-- A DRAIN stops only at its row check: no strobe of its frames is one the receivers do not know. -/
theorem exec_drain_ends {w : CommandWord} {row : BitVec 8} (hdec : decode w = .ok (.drain row)) (s : State) :
    CommandEnds s.params w (exec (.drain row) s) := by
  by_cases hrow : row.toNat < s.params.rowCount
  · obtain ⟨t, ht, -⟩ := drainCompletes s row hrow
    rw [ht]
    exact .next t
  · rw [exec, execDrain, drainRow, checkRow_ge _ hrow]
    exact .outOfRange row (Nat.le_of_not_lt hrow) (.inl hdec)

/-- Of the operations a command word asks for, only ENCODE and DRAIN can stop. -/
theorem exec_ends {w : CommandWord} {i : Instr} (hdec : decode w = .ok i) (s : State) :
    CommandEnds s.params w (exec i s) := by
  obtain rfl | ⟨gain, rfl⟩ | ⟨value, rfl⟩ | ⟨row, rfl⟩ | ⟨row, col, r, g, b, rfl⟩ | ⟨index, r, g, b, rfl⟩ | ⟨r, g, b, rfl⟩ :=
    decode_cases hdec
  · rw [exec_init]
    exact .next _
  · rw [exec, execSetGain, writeConfig, emitAll_wrcfg]
    exact .next _
  · rw [exec, execWrcfg, writeConfig, emitAll_wrcfg]
    exact .next _
  · exact exec_drain_ends hdec s
  · exact exec_encode_ends hdec s
  · cases hpos : s.params.ledPos[index.toNat]? with
    | none =>
      rw [exec, execSetColor_of_none hpos]
      exact .next s
    | some pos =>
      rw [exec, execSetColor_of_some hpos]
      exact .next _
  · rw [setColorAll_eq_next.mpr rfl]
    exact .next _

/-- A word that does not decode has a reserved opcode. -/
theorem reservedOp_of_decode_error {w : CommandWord} {e : DecodeError} (hdec : decode w = .error e) (p : Params) :
    CommandEnds p w (.refused .reservedOp) := by
  obtain ⟨rfl, -⟩ := decode_eq_error_iff.mp hdec
  exact .reservedOp hdec

theorem runCommand_ends (w : CommandWord) (s : State) : CommandEnds s.params w (runCommand w s) := by
  cases hdec : decode w with
  | ok i =>
    rw [runCommand_of_decode_ok hdec]
    exact exec_ends hdec s
  | error e =>
    rw [runCommand_of_decode_error hdec]
    exact reservedOp_of_decode_error hdec s.params

/-- An operation that an event interrupts has been begun, and goes on. -/
theorem runCommandUntil_ends (w : CommandWord) (k : Nat) (s : State) : CommandEnds s.params w (runCommandUntil w k s) := by
  cases hdec : decode w with
  | ok i =>
    cases hjob : jobOf i s with
    | some j =>
      rw [runCommandUntil_of_job hdec hjob]
      exact .next _
    | none =>
      rw [runCommandUntil_of_atomic hdec hjob]
      exact exec_ends hdec s
  | error e =>
    rw [runCommandUntil_of_decode_error hdec]
    exact reservedOp_of_decode_error hdec s.params

/-! ### The step -/

/-- How a step can end: in a next state, in the fault OVERRUN (60_exceptions.md rule R211), or as the command word at the port
does. -/
inductive StepEnds (s : State) : Result → Prop where
  | next (t : State) : StepEnds s (.next t)
  | overrun (hen : s.tickEn = true) (rest : List Stim) (hstim : s.stim = .tickInTick :: rest) : StepEnds s (.fault .overrun)
  | command (w : CommandWord) (rest : List Stim) (hstim : s.stim = .cmd w :: rest ∨ ∃ k, s.stim = .cmdUntil w k :: rest)
      (o : Result) (h : CommandEnds s.params w o) : StepEnds s o

/-- With a command word waiting, an operation in progress runs to its end (00_scope.md rule R9). -/
theorem step_of_busy {s : State} {j : Job} {w : CommandWord} {rest : List Stim} (hbusy : s.busy = some j)
    (hstim : s.stim = .cmd w :: rest ∨ ∃ k, s.stim = .cmdUntil w k :: rest) : step s = .next (finishJob s) := by
  obtain hstim | ⟨k, hstim⟩ := hstim <;> simp only [step, moveNext, hstim, hbusy]

/-- Everything a step can end in: the only premise is that the cursor's row, which a TICK drains, is there. -/
theorem step_ends {s : State} (hcursor : CursorOk s) : StepEnds s (step s) := by
  cases hstim : s.stim with
  | nil => simpa only [step, moveNext, hstim] using .next _
  | cons e rest =>
    cases e with
    | cmd w =>
      cases hbusy : s.busy with
      | some j => exact step_of_busy hbusy (.inl hstim) ▸ .next _
      | none =>
        rw [step_cmd_of_idle hbusy hstim]
        exact .command w rest (.inl hstim) _ (runCommand_ends w { s with stim := rest })
    | cmdUntil w k =>
      cases hbusy : s.busy with
      | some j => exact step_of_busy hbusy (.inr ⟨k, hstim⟩) ▸ .next _
      | none =>
        rw [step_cmdUntil_of_idle hbusy hstim]
        exact .command w rest (.inr ⟨k, hstim⟩) _ (runCommandUntil_ends w k { s with stim := rest })
    | tick =>
      obtain ⟨t, ht⟩ := exec_tick_next (s := { s with stim := rest }) hcursor
      rw [stepServesTick s rest hstim, ht]
      exact .next t
    | tickInTick =>
      rw [tickInsideTickOverruns s rest hstim]
      split
      · next hen => exact .overrun hen rest hstim
      · exact .next _
    | runUntil _ | indicator _ | clearDirty | reset => simpa only [step, moveNext, hstim] using .next _

/-- Settles O52: of the ends of a step only OVERRUN is a fault, and only a command word is refused. -/
theorem stepStopsOnlyWhereTheSpecSays : Obligations.StepStopsOnlyWhereTheSpecSays := by
  intro s hs
  have hends := step_ends hs.cursor
  refine ⟨fun f hf => ?_, fun q hq => ?_⟩
  · rw [hf] at hends
    cases hends with
    | overrun hen rest hstim => exact ⟨rfl, hen, rest, hstim⟩
    | command w rest hstim _ h => cases h
  · rw [hq] at hends
    cases hends with
    | command w rest hstim _ h =>
      refine ⟨w, rest, hstim, ?_⟩
      cases h with
      | reservedOp hdec => exact .inl ⟨rfl, hdec⟩
      | outOfRange row hrow hdec => exact .inr ⟨rfl, row, hrow, hdec⟩

end Sys2Proof.Machine
end

section
/-! SUPPORT. The reset event (70_reset_and_hazards.md rules R240, R241). -/

namespace Sys2Proof.Machine

/-- With the reset event next, whatever is in progress, the step takes the event off and resets the block. -/
theorem step_reset {s : State} {rest : List Stim} (hstim : s.stim = .reset :: rest) :
    step s = .next (resetEvent { s with stim := rest }) := by
  simp only [step, moveNext, hstim]

/-- Settles O13: the step answers `resetEvent`'s state, which keeps the chips, the indicator level and the events still to come. -/
theorem resetEventSparesTheChips : Obligations.ResetEventSparesTheChips := by
  intro s rest hstim
  exact ⟨resetEvent { s with stim := rest }, step_reset hstim, rfl, rfl, rfl, rfl⟩

end Sys2Proof.Machine
end

section
/-! SUPPORT. The end of an operation in progress (00_scope.md rule R9): from a state that meets the invariant, the sub-steps
`finishJob` makes are enough to come to `endState`, in which nothing is in progress. -/

namespace Sys2Proof.Machine

/-- What follows an ENCODE begins no operation. -/
theorem afterEncode_busy (k : JobKind) (s : State) : (afterEncode k s).busy = s.busy := by
  cases k with
  | encode | setColor => rfl
  | setColorAll r g b ind slot => rw [afterEncode, setDirty_busy, encodeSlots_eq]

theorem endState_busy (s : State) : (endState s).busy = none := by
  cases hbusy : s.busy with
  | none => rw [endState_of_idle hbusy, hbusy]
  | some j => rw [endState_of_busy hbusy, afterEncode_busy, writePlanes_eq]

/-- The slots that follow one of the frame buffer's slots are fewer than all. -/
theorem slotsAfter_lt (p : Params) (k : JobKind) : slotsAfter p k < p.rowCount * 16 := by
  have hrows := rowCount_pos p
  cases k <;> simp only [slotsAfter] <;> omega

/-- Between steps an operation in progress has a plane left, and no more word writes than the frame buffer has words. -/
theorem Inv.wordsLeft_le {s : State} (h : Inv s) : PlaneLeft s ∧ wordsLeft s ≤ s.params.rowCount * 256 := by
  refine ⟨fun j hj => (h.job j hj).1, ?_⟩
  cases hbusy : s.busy with
  | none =>
    rw [wordsLeft, hbusy]
    exact Nat.zero_le _
  | some j =>
    have hslots := slotsAfter_lt s.params j.kind
    rw [wordsLeft_of_busy hbusy]
    omega

theorem Inv.finishJob_eq_endState {s : State} (h : Inv s) : finishJob s = endState s :=
  runFor_eq_endState h.wordsLeft_le.1 h.wordsLeft_le.2

theorem finishJob_stim (s : State) : (finishJob s).stim = s.stim := by rw [finishJob, runFor_eq]

/-- With nothing else to do, an operation in progress runs to its end (00_scope.md rule R9). -/
theorem step_of_no_stim {s : State} (hstim : s.stim = []) : step s = .next (finishJob s) := by
  simp only [step, moveNext, hstim]

/-- Settles O23: the step runs `finishJob`, which comes to the operation's end state and does not touch the port. -/
theorem operationInProgressEnds : Obligations.OperationInProgressEnds := by
  intro s w k rest hs hsome hstim
  obtain ⟨j, hbusy⟩ := Option.isSome_iff_exists.mp hsome
  have hstep : step s = .next (finishJob s) := by
    obtain hnil | hcmd | huntil := hstim
    · exact step_of_no_stim hnil
    · exact step_of_busy hbusy (.inl hcmd)
    · exact step_of_busy hbusy (.inr ⟨k, huntil⟩)
  refine ⟨finishJob s, hstep, ?_, finishJob_stim s⟩
  rw [hs.finishJob_eq_endState, endState_busy]

end Sys2Proof.Machine
end

section
/-! SUPPORT. ROW_SET and DOUT_WR at every level of LE and DCLK (43_row_scheduler.md rule R171; 42_protocol_engine.md rule R133). -/

namespace Sys2Proof.Machine

/-- A row beyond ROW_COUNT has no switch (log entry 13). -/
theorem exec_rowSet_of_ge {r : BitVec 8} {s : State} (v : Bool) (h : ¬r.toNat < s.params.rowCount) :
    exec (.rowSet r v) s = .refused .outOfRange := by
  rw [exec, execRowSet, checkRow_ge _ h]

/-- Settles O58: ROW_SET checks its row operand alone, DOUT_WR checks nothing, and neither reads or writes LE or DCLK. -/
theorem pinLevelsAreNotChecked : Obligations.PinLevelsAreNotChecked := by
  intro s r v w le dclk
  refine ⟨?_, rfl⟩
  by_cases hrow : r.toNat < s.params.rowCount
  · rw [rowSet_eq_next (s := s) |>.mpr ⟨hrow, rfl⟩, andThen_next]
    exact rowSet_eq_next.mpr ⟨hrow, rfl⟩
  · rw [exec_rowSet_of_ge (s := s) v hrow, andThen_refused]
    exact exec_rowSet_of_ge v hrow

end Sys2Proof.Machine
end
